-- ==== Sys2Proof/Word.lean ====
section
/-! DEFINITION. The words of the block: the byte of the expander port and of an instruction, and the nibble of one
transfer (00_scope.md R8: `XP_WIDTH` = 8, `NIB_WIDTH` = 4; R10). -/

namespace Sys2Proof

/-- A byte: an expander output byte, an instruction byte, an 8-bit operand or register (R10). -/
abbrev Byte := BitVec 8

/-- A nibble: one transfer to the display (R10). -/
abbrev Nibble := BitVec 4

end Sys2Proof
end

