-- ==== Sys2Proof/Config.lean ====
section
/-! DEFINITION. The parameters of the block (00_scope.md R8), the transport's replies, and the model's free values: the
opaque constants that stand for what the spec leaves open. Nothing can be proved of the value of an opaque constant. -/

namespace Sys2Proof

/-- The five nominal durations (00_scope.md R8, 70_reset_and_hazards.md R216). -/
inductive DelayParam where
  | powerup | reset1 | reset2 | reset3 | settle
  deriving DecidableEq, Repr

/-- The parameters of R8 that a deployment fixes. They are no state of the block (10_state.md R37); a state carries them
so that a statement about every state is one about every configuration (log 11). -/
structure Config where
  /-- `FRAME_BOUND - 4`: the bound is at least 4 (43_transaction_batcher.md R131). -/
  frameRoom : Nat
  /-- `I2C_ADDR`: carried by every transaction, never computed on (log 13). -/
  i2cAddr : Nat
  /-- `T_POWERUP`, in microseconds. -/
  tPowerup : Nat
  /-- `T_RESET1`, in microseconds. -/
  tReset1 : Nat
  /-- `T_RESET2`, in microseconds. -/
  tReset2 : Nat
  /-- `T_RESET3`, in microseconds. -/
  tReset3 : Nat
  /-- `T_SETTLE`, in microseconds. -/
  tSettle : Nat
  /-- `SCROLL_CMD[left]`. -/
  scrollLeft : Byte
  /-- `SCROLL_CMD[right]`. -/
  scrollRight : Byte
  deriving DecidableEq, Repr

/-- The transport's answer to a transaction, all that the block sees of it (20_memory.md R52). -/
inductive Answer where
  | ok | fail
  deriving DecidableEq, Repr

/-- What the transport does with a transaction: it delivers all of it, or it fails after `delivered` of its bytes
reached the expander (20_memory.md R52, 93_implementation_defined.md U5, log 8). -/
inductive Reply where
  | ok
  | fail (delivered : Nat)
  deriving DecidableEq, Repr, Inhabited

/-- OPEN parameter `FRAME_BOUND`, as its excess over 4 (R8, U11, log 11). -/
opaque Config.openFrameRoom : Nat

/-- OPEN parameter `I2C_ADDR` (R8, U12, log 11). -/
opaque Config.openI2cAddr : Nat

/-- OPEN parameter `SCROLL_CMD[left]` (R8, U13, log 11). -/
opaque Config.openScrollLeft : Byte

/-- OPEN parameter `SCROLL_CMD[right]` (R8, U13, log 11). -/
opaque Config.openScrollRight : Byte

/-- The transport's reply where no reply is listed, a fresh one for each value of the state's counter (log 7). -/
opaque Config.freeReply : Nat → Reply

/-- The choice of the offending signal a ConfigurationError names (40_pinmap.md R101, log 9). -/
opaque Config.freeChoice : Nat → Nat

/-- The expander's pins before the first byte reaches them (N8, U17, log 10). -/
opaque Config.expanderPowerUp : Byte

/-- What a display takes when the byte that lowers `en` also changes another line: some register-select level and nibble,
or nothing. Its arguments are the two bytes and how many bytes follow (60_exceptions.md R189, U3, log 25). -/
opaque Config.unsteadyEdge : Byte → Byte → Nat → Option (Bool × Nibble)

end Sys2Proof
end

