-- ==== Sys2Proof/Machine/Params.lean ====
section
/-! DEFINITION. The values the spec gives: reset values (10_state.md R30), nominal durations (00_scope.md R8), and what is
computed from the parameters. -/

namespace Sys2Proof.Machine

/-- `EM` after construction: left-to-right, no autoscroll (10_state.md R30). -/
def emReset : BitVec 2 := 0b10#2

/-- `DC` after construction: display, cursor and blink off (10_state.md R30). -/
def dcReset : BitVec 3 := 0b000#3

/-- `BL_RESET` (00_scope.md R8, 10_state.md R30). -/
def blReset : Byte := 0

/-- The configuration of `State.reset`: OPEN parameters free (log 11), nominal durations (log 12). -/
def deployedConfig : Config :=
  { frameRoom := Config.openFrameRoom
    i2cAddr := Config.openI2cAddr
    tPowerup := 50000
    tReset1 := 4500
    tReset2 := 200
    tReset3 := 200
    tSettle := 1600
    scrollLeft := Config.openScrollLeft
    scrollRight := Config.openScrollRight }

/-- `FRAME_BOUND` (00_scope.md R8). -/
def frameBound (c : Config) : Nat := c.frameRoom + 4

/-- `K = floor(FRAME_BOUND / 4)`, the instructions one transaction can hold (43_transaction_batcher.md R130). -/
def perTransaction (c : Config) : Nat := frameBound c / 4

/-- The length of a delay, in microseconds (R8, R216). -/
def delayMicros (c : Config) : DelayParam → Nat
  | .powerup => c.tPowerup
  | .reset1 => c.tReset1
  | .reset2 => c.tReset2
  | .reset3 => c.tReset3
  | .settle => c.tSettle

end Sys2Proof.Machine
end

