-- ==== Sys2Proof/Syntax.lean ====
section
/-! DEFINITION. The host's operations as syntax: one constructor of `Instr` per row of spec/opcode_table.json
(30_encoding.md R70), the operand types, and why a port image can be no operation. -/

namespace Sys2Proof

/-- The eight logical signals of the pin map (10_state.md R20). -/
inductive Signal where
  | rs | rw | en | bl | d0 | d1 | d2 | d3
  deriving DecidableEq, Repr, Inhabited

/-- One value per logical signal: the shape of the `POS` and of the `MASK` register file (10_state.md R21). -/
structure PerSignal (α : Type) where
  rs : α
  rw : α
  en : α
  bl : α
  d0 : α
  d1 : α
  d2 : α
  d3 : α
  deriving DecidableEq, Repr

/-- Entry direction, `RTL` = 0 and `LTR` = 1 (30_encoding.md R74). -/
inductive EntryDir where
  | rtl | ltr
  deriving DecidableEq, Repr

/-- Scroll direction, `left` = 0 and `right` = 1 (30_encoding.md R74). -/
inductive ScrollDir where
  | left | right
  deriving DecidableEq, Repr

/-- The operands of `construct` (format F-PIN, R70): six positions, and `rw` and `bl` each a position or absent.
255 is a number like any other (U19); the six mandatory signals have no absent value (10_state.md R22). -/
structure PinOperands where
  rs : Byte
  rw : Option Byte
  en : Byte
  bl : Option Byte
  d0 : Byte
  d1 : Byte
  d2 : Byte
  d3 : Byte
  deriving DecidableEq, Repr

/-- A host operation (30_encoding.md R70). `initDisplay` is the table's `initialize`. -/
inductive Instr where
  /-- OPSEL 0, `construct` (40_pinmap.md R100). -/
  | construct (pins : PinOperands)
  /-- OPSEL 1, `initialize` (44_init_sequence.md R140). -/
  | initDisplay (columns rows : Byte)
  /-- OPSEL 2, `clear` (45_display_controller.md R150). -/
  | clear
  /-- OPSEL 3, `home` (R151). -/
  | home
  /-- OPSEL 4, `set_cursor`, column first (R152). -/
  | setCursor (col row : Byte)
  /-- OPSEL 5, `display` (41_display_state.md R110). -/
  | display (on : Bool)
  /-- OPSEL 6, `cursor` (R111). -/
  | cursor (on : Bool)
  /-- OPSEL 7, `blink` (R112). -/
  | blink (on : Bool)
  /-- OPSEL 8, `scroll` (R156). -/
  | scroll (direction : ScrollDir)
  /-- OPSEL 9, `entry_mode` (R113). -/
  | entryMode (direction : EntryDir) (autoscroll : Bool)
  /-- OPSEL 10, `set_backlight` (R157). -/
  | setBacklight (level : Byte)
  /-- OPSEL 11, `create_glyph` (R154); a bitmap is eight bytes (`WellFormed.lean`). -/
  | createGlyph (slot : Byte) (bitmap : List Byte)
  /-- OPSEL 12, `write_byte` (42_command_encoder.md R122). -/
  | writeByte (byte : Byte)
  /-- OPSEL 13, `write_bytes`; `len` is the length of `buffer` (43_transaction_batcher.md R130). -/
  | writeBytes (buffer : List Byte)
  /-- OPSEL 14, `send_raw_command` (R121). -/
  | sendRawCommand (byte : Byte)
  deriving DecidableEq, Repr

/-- Why a port image is no operation of R70 (log 1). -/
inductive DecodeError where
  /-- The image has no OPSEL byte. -/
  | emptyImage
  /-- OPSEL 15 selects nothing (30_encoding.md R86). -/
  | reservedOpsel
  /-- The number of operand bytes is not the format's. -/
  | wrongOperandCount
  /-- The byte of a one-bit operand is neither 0 nor 1. -/
  | notOneBit
  /-- The two bytes of an optional pin position are neither `0, 0` (absent) nor `1, p`. -/
  | notAnOptionalPin
  deriving DecidableEq, Repr

/-- Is the operation `construct`? -/
def Instr.isConstruct : Instr → Bool
  | .construct _ => true
  | _ => false

/-- The named preset `PRESET_DEFAULT` (00_scope.md R8, 40_pinmap.md R102). -/
def presetDefault : PinOperands :=
  { rs := 0, rw := none, en := 2, bl := some 3, d0 := 4, d1 := 5, d2 := 6, d3 := 7 }

/-- Pseudo-operation `construct_default` (30_encoding.md R75, 40_pinmap.md R102). -/
def Instr.constructDefault : Instr := .construct presetDefault

/-- Pseudo-operation `display_on` (30_encoding.md R75). -/
def Instr.displayOn : Instr := .display true

end Sys2Proof
end

