-- ==== Sys2Proof/Machine/State.lean ====
section
/-! DEFINITION. The state of the block (10_state.md), what leaves it (the trace, the reports, the bytes on the expander's
pins), the inputs that wait outside it, and why a step can stop. -/

namespace Sys2Proof.Machine

/-- `LIFE` (10_state.md R32). -/
inductive Life where
  | unconstructed | constructed
  deriving DecidableEq, Repr

/-- One item of the trace (00_scope.md R15). -/
inductive TraceItem where
  /-- A bus transaction: its target, its bytes in order, the transport's answer (20_memory.md R52). -/
  | tx (addr : Nat) (bytes : List Byte) (answer : Answer)
  /-- A delay: which parameter, and at least how many microseconds (70_reset_and_hazards.md R216). -/
  | delay (which : DelayParam) (micros : Nat)
  deriving DecidableEq, Repr

/-- What a ConfigurationError names (40_pinmap.md R101). -/
inductive PinFault where
  /-- This signal's position is above 7. -/
  | range (s : Signal)
  /-- These two signals share a position; the order of the two says nothing (log 9). -/
  | conflict (s t : Signal)
  deriving DecidableEq, Repr

/-- Which operand an InvalidArgument names (60_exceptions.md R170, R174). -/
inductive ArgName where
  | row | col
  deriving DecidableEq, Repr

/-- The four error classes, with their info (60_exceptions.md R170). -/
inductive OpError where
  | configuration (info : PinFault)
  | initFailure (k : Nat)
  | transport (offset : Nat)
  | invalidArgument (which : ArgName)
  deriving DecidableEq, Repr

/-- How an operation ended, as the host hears it (30_encoding.md R72, 60_exceptions.md R170). -/
inductive Report where
  /-- It completed and returns nothing. -/
  | done
  /-- It completed and returns the count of operand bytes consumed. -/
  | count (n : Nat)
  /-- It raised an error. -/
  | error (e : OpError)
  deriving DecidableEq, Repr

/-- Nothing the spec describes stops the block with a fault: an error ends an operation and is reported, and the block is
ready for the next one (60_exceptions.md R178, R180; log 15). So no constructor. -/
inductive Fault where
  deriving DecidableEq, Repr

/-- Why the machine gives a request no step, no result and no error. -/
inductive Refusal where
  /-- Raised by `exec` for an instruction that has no meaning yet; none is left. Safe. -/
  | notModelled (mnemonic : String)
  /-- Raised by `step`: OPSEL 15 selects nothing (30_encoding.md R86). Safe: the spec refuses it. -/
  | reservedOperation
  /-- Raised by `step`: the port image is no operation of R70 (log 1, log 16). Safe: nothing is claimed of it. -/
  | malformedRequest (why : DecodeError)
  /-- Raised by `construct` when `LIFE` is Constructed (10_state.md R32). Safe: the spec refuses it. -/
  | alreadyConstructed
  /-- Raised by every other operation when `LIFE` is Unconstructed (10_state.md R32). Safe: the spec refuses it. -/
  | notConstructed
  deriving DecidableEq, Repr

/-- The whole state. The first ten fields are the block's registers; `cfg` is its configuration; `requests`, `replies`
and `draws` are what waits outside it; `trace`, `pins` and `reports` are what has left it. -/
@[ext]
structure State where
  /-- `LIFE` (R32). -/
  life : Life
  /-- The position registers `POS[s]` (R21): a bit position, or absent. -/
  pos : PerSignal (Option (Fin 8))
  /-- The mask registers `MASK[s]` (R21, R22). -/
  mask : PerSignal Byte
  /-- `EM`, entry mode: bit 1 `dir`, bit 0 `as` (R26). -/
  em : BitVec 2
  /-- `DC`, display control: bit 2 `disp`, bit 1 `cur`, bit 0 `blink` (R27). -/
  dc : BitVec 3
  /-- `BL`, backlight level (R28). -/
  bl : Byte
  /-- `COLS` (R29). -/
  cols : Byte
  /-- `ROWS` (R29). -/
  rows : Byte
  /-- `CNT`, the batcher's byte counter (R33). -/
  cnt : Nat
  /-- `SEQ`, the index of the plan step being performed, or idle (R34). -/
  seq : Option Nat
  /-- The parameters (R37; log 11). -/
  cfg : Config
  /-- The operations the host will issue, each as its port image (R60, R70; log 6). -/
  requests : List (List Byte)
  /-- What the transport will do, one reply per transaction (R52; log 7). -/
  replies : List Reply
  /-- The model's own counter of free values drawn (log 21). -/
  draws : Nat
  /-- The trace, oldest first (R15, R217). -/
  trace : List TraceItem
  /-- The bytes that reached the expander's pins, oldest first (R52, R188). -/
  pins : List Byte
  /-- The outcomes reported to the host, oldest first (R72, R178). -/
  reports : List Report
  deriving DecidableEq, Repr

/-- The block at power-on with given parameters: not yet constructed, nothing performed, nothing asked (10_state.md R32,
95_test_vectors.md part 3). Before `construct` "no register holds a value": the values here are the model's (log 4). -/
def State.resetWith (c : Config) : State :=
  { life := .unconstructed
    pos := ⟨none, none, none, none, none, none, none, none⟩
    mask := ⟨0, 0, 0, 0, 0, 0, 0, 0⟩
    em := emReset
    dc := dcReset
    bl := blReset
    cols := 0
    rows := 0
    cnt := 0
    seq := none
    cfg := c
    requests := []
    replies := []
    draws := 0
    trace := []
    pins := []
    reports := [] }

/-- The machine right after reset. -/
def State.reset : State := State.resetWith deployedConfig

end Sys2Proof.Machine
end

