-- ==== Sys2Proof/Machine/Ops.lean ====
section
/-! DEFINITION. The named operations: access to the register files, the writes of a plan, the transport, the delays,
performing a plan, raising an error and ending an operation (00_scope.md R11 to R15; 60_exceptions.md R178). -/

namespace Sys2Proof

/-- `x[s]` of a register file (00_scope.md R11). -/
def PerSignal.get {α : Type} (x : PerSignal α) : Signal → α
  | .rs => x.rs
  | .rw => x.rw
  | .en => x.en
  | .bl => x.bl
  | .d0 => x.d0
  | .d1 => x.d1
  | .d2 => x.d2
  | .d3 => x.d3

/-- A register file computed signal by signal from another. -/
def PerSignal.map {α β : Type} (f : α → β) (x : PerSignal α) : PerSignal β :=
  ⟨f x.rs, f x.rw, f x.en, f x.bl, f x.d0, f x.d1, f x.d2, f x.d3⟩

end Sys2Proof

namespace Sys2Proof.Machine

/-- All signals, in the order of 30_encoding.md R81's names. -/
def allSignals : List Signal := [.rs, .rw, .en, .bl, .d0, .d1, .d2, .d3]

/-- `Set(f, v)`: a write to one field of the display state (00_scope.md R11, R13). -/
inductive FieldWrite where
  | em (v : BitVec 2)
  | dc (v : BitVec 3)
  | bl (v : Byte)
  | cols (v : Byte)
  | rows (v : Byte)
  deriving DecidableEq, Repr

/-- A step of a plan (00_scope.md R13). -/
inductive PlanStep where
  | set (w : FieldWrite)
  | tx (bytes : List Byte)
  | delay (which : DelayParam)
  deriving DecidableEq, Repr

/-- `ST.f <- v`. -/
def State.write (s : State) : FieldWrite → State
  | .em v => { s with em := v }
  | .dc v => { s with dc := v }
  | .bl v => { s with bl := v }
  | .cols v => { s with cols := v }
  | .rows v => { s with rows := v }

/-- Write `CNT`. -/
def State.setCnt (s : State) (n : Nat) : State := { s with cnt := n }

/-- Write `SEQ`. -/
def State.setSeq (s : State) (k : Option Nat) : State := { s with seq := k }

/-- `SEQ` moves on to the next plan step (10_state.md R34). -/
def State.advance (s : State) : State := { s with seq := s.seq.map (· + 1) }

/-- The host hears how its operation ended (30_encoding.md R72, 60_exceptions.md R178). -/
def State.report (s : State) (r : Report) : State := { s with reports := s.reports ++ [r] }

/-- One more item of the trace (00_scope.md R15). -/
def State.record (s : State) (item : TraceItem) : State := { s with trace := s.trace ++ [item] }

/-- Bytes that reach the expander's pins, in order (20_memory.md R52). -/
def State.drive (s : State) (bytes : List Byte) : State := { s with pins := s.pins ++ bytes }

/-- Another free value has been drawn (log 21). -/
def State.draw (s : State) : State := { s with draws := s.draws + 1 }

/-- The host's next operation has been taken (20_memory.md R60). -/
def State.takeRequest (s : State) : State := { s with requests := s.requests.tail }

/-- A request put at the head of the host's operations. -/
def State.placeRequest (s : State) (image : List Byte) : State := { s with requests := image :: s.requests }

/-- What the transport does with the next transaction: the next listed reply, or a free one (R52, log 7). -/
def State.nextReply (s : State) : Reply :=
  match s.replies with
  | r :: _ => r
  | [] => Config.freeReply s.draws

/-- The reply has been used. -/
def State.takeReply (s : State) : State :=
  match s.replies with
  | _ :: rest => { s with replies := rest }
  | [] => s.draw

/-- The part of a reply that the block sees (20_memory.md R52). -/
def replyAnswer : Reply → Answer
  | .ok => .ok
  | .fail _ => .fail

/-- The bytes of a transaction that reach the pins: all, or the first so many (20_memory.md R52, U5). -/
def replyDelivers (bytes : List Byte) : Reply → List Byte
  | .ok => bytes
  | .fail n => bytes.take n

/-- The answer the next transaction will get. -/
def State.nextAnswer (s : State) : Answer := replyAnswer s.nextReply

/-- `Transport(bs)`: the transaction is in the trace with its answer, and what was delivered is on the pins
(00_scope.md R12, R15; 20_memory.md R52). The answer is `nextAnswer` of the state before. -/
def State.transact (s : State) (bytes : List Byte) : State :=
  (s.takeReply.record (.tx s.cfg.i2cAddr bytes s.nextAnswer)).drive (replyDelivers bytes s.nextReply)

/-- `wait(t)` (00_scope.md R12, 60_exceptions.md R186). -/
def State.wait (s : State) (d : DelayParam) : State := s.record (.delay d (delayMicros s.cfg d))

/-- The rest of a plan, `j` of whose transactions were answered `ok` (00_scope.md R13). The error of a failing
transaction is `E j`; the steps after it are not performed (R14), and `SEQ` is idle at the end (10_state.md R34). -/
def performFrom (E : Nat → OpError) : List PlanStep → Nat → State → State × Option OpError
  | [], _, s => (s.setSeq none, none)
  | .set w :: rest, j, s => performFrom E rest j (s.write w).advance
  | .delay d :: rest, j, s => performFrom E rest j (s.wait d).advance
  | .tx bytes :: rest, j, s =>
    match s.nextAnswer with
    | .ok => performFrom E rest (j + 1) (s.transact bytes).advance
    | .fail => ((s.transact bytes).setSeq none, some (E j))

/-- `perform(plan, E)` (00_scope.md R13). -/
def perform (E : Nat → OpError) (plan : List PlanStep) (s : State) : State × Option OpError :=
  performFrom E plan 0 (s.setSeq (some 0))

/-- An operation that ends without `raise` returns its result value to the host (00_scope.md R14). -/
def complete (s : State) (r : Report) : Host.Outcome State Fault Refusal := .next (s.report r)

/-- `raise X(info)`: the operation is over, the class and info go to the host, every field stays as it stands, and the
block is ready for the next operation: nothing is saved and there is nothing to return from (00_scope.md R14;
60_exceptions.md R178, R180). -/
def State.raised (s : State) (e : OpError) : State := s.report (.error e)

/-- An operation that raises an error before its plan (00_scope.md R14). -/
def raise (s : State) (e : OpError) : Host.Outcome State Fault Refusal := .next (s.raised e)

/-- The end of an operation whose plan was performed: its result, or the error that ended it (00_scope.md R13, R14). -/
def State.ended (s : State) (result : Report) : Option OpError → State
  | none => s.report result
  | some e => s.raised e

/-- Perform a plan and tell the host the result, or the error that ended it (00_scope.md R13, R14; 60_exceptions.md
R178). -/
def runPlan (E : Nat → OpError) (plan : List PlanStep) (result : Report) (s : State) :
    Host.Outcome State Fault Refusal :=
  .next ((perform E plan s).1.ended result (perform E plan s).2)

/-- The gate of every operation but `construct` (10_state.md R32, 45_display_controller.md R158). -/
def whenConstructed (s : State) (k : Host.Outcome State Fault Refusal) : Host.Outcome State Fault Refusal :=
  match s.life with
  | .constructed => k
  | .unconstructed => .refused .notConstructed

/-- The error of an operation's only transaction: no operand byte was carried before it (60_exceptions.md R173). -/
def singleTransportError (_ : Nat) : OpError := .transport 0

/-- The numbers of the error classes (60_exceptions.md R170). -/
def OpError.code : OpError → Nat
  | .configuration _ => 1
  | .initFailure _ => 2
  | .transport _ => 3
  | .invalidArgument _ => 4

/-- The outcome code; 0 means the operation completed (60_exceptions.md R170). -/
def Report.code : Report → Nat
  | .done => 0
  | .count _ => 0
  | .error e => e.code

end Sys2Proof.Machine
end

