-- ==== Sys2Proof/Machine/Encoder.lean ====
section
/-! DEFINITION. The expander output byte, the nibble pair and the frame (30_encoding.md R76 to R79, R88, R89), the display
instruction (42_command_encoder.md R120), and the display's view of a frame (R82). The encoder reads the eight masks and
the predicate `ST.BL > 0`, and nothing else (R120). -/

namespace Sys2Proof.Machine

/-- The high nibble `v[7:4]`. -/
def highNibble (v : Byte) : Nibble := v.extractLsb' 4 4

/-- The low nibble `v[3:0]`. -/
def lowNibble (v : Byte) : Nibble := v.extractLsb' 0 4

/-- `c ? m : 0` on bytes (00_scope.md R10). -/
def maskIf (c : Bool) (m : Byte) : Byte := if c then m else 0

/-- `nib(n)` (R76). -/
def nib (m : PerSignal Byte) (n : Nibble) : Byte :=
  maskIf (n.getLsbD 0) m.d0 ||| maskIf (n.getLsbD 1) m.d1 ||| maskIf (n.getLsbD 2) m.d2 ||| maskIf (n.getLsbD 3) m.d3

/-- `base(rs)`, for a backlight that is on or off (R77). -/
def base (m : PerSignal Byte) (lit rs : Bool) : Byte := maskIf lit m.bl ||| maskIf rs m.rs

/-- `pair(rs, n)`: enable high, then enable low (R78). -/
def pair (m : PerSignal Byte) (lit rs : Bool) (n : Nibble) : List Byte :=
  [base m lit rs ||| nib m n ||| m.en, base m lit rs ||| nib m n]

/-- `frame(rs, v)`: the pair of the high nibble, then the pair of the low nibble (R79). -/
def frame (m : PerSignal Byte) (lit rs : Bool) (v : Byte) : List Byte :=
  pair m lit rs (highNibble v) ++ pair m lit rs (lowNibble v)

/-- An Instruction: a tagged value; the tag controls the register-select bit (00_scope.md R18). -/
inductive DisplayInstr where
  | command (v : Byte)
  | data (v : Byte)
  deriving DecidableEq, Repr

/-- `encode(instruction, pin_map, backlight_on)` (42_command_encoder.md R120). -/
def encodeInstr (m : PerSignal Byte) (lit : Bool) : DisplayInstr → List Byte
  | .command v => frame m lit false v
  | .data v => frame m lit true v

/-- `backlight_on`: `ST.BL > 0` (R77; 10_state.md R28). -/
def isLit (level : Byte) : Bool := decide (0 < level.toNat)

/-- `ST.BL > 0` of the state. -/
def State.lit (s : State) : Bool := isLit s.bl

/-- `cmd(v)`: a Command instruction in a transaction of its own (R79). -/
def State.cmd (s : State) (v : Byte) : PlanStep := .tx (encodeInstr s.mask s.lit (.command v))

/-- `data(v)`: a Data instruction in a transaction of its own (R79). -/
def State.data (s : State) (v : Byte) : PlanStep := .tx (encodeInstr s.mask s.lit (.data v))

/-- `rawnib(n)`: one nibble pair with `rs` = 0 in a transaction of its own (R88). -/
def State.rawnib (s : State) (n : Nibble) : PlanStep := .tx (pair s.mask s.lit false n)

/-- The re-latch byte: `base(1)` under the new level (R89, 45_display_controller.md R157). -/
def relatchByte (m : PerSignal Byte) (level : Byte) : Byte := base m (isLit level) true

/-- `unnib(b)`: the nibble on the data lines of a byte (R82). -/
def unnib (m : PerSignal Byte) (b : Byte) : Nibble :=
  (if b &&& m.d0 ≠ 0 then 0b0001#4 else 0) ||| (if b &&& m.d1 ≠ 0 then 0b0010#4 else 0) |||
    (if b &&& m.d2 ≠ 0 then 0b0100#4 else 0) ||| (if b &&& m.d3 ≠ 0 then 0b1000#4 else 0)

end Sys2Proof.Machine
end

