-- ==== Sys2Proof/Machine/CommandEncoder.lean ====
section
/-! DEFINITION. CommandEncoder family: `send_raw_command`, `write_byte` (42_command_encoder.md). -/

namespace Sys2Proof.Machine

/-- `send_raw_command(byte)`: any byte as a command, no flag followed and no delay (R121). -/
def execSendRawCommand (byte : Byte) (s : State) : Host.Outcome State Fault Refusal :=
  whenConstructed s (runPlan singleTransportError [s.cmd byte] .done s)

/-- `write_byte(byte)`: one data byte; the count 1 (R122). -/
def execWriteByte (byte : Byte) (s : State) : Host.Outcome State Fault Refusal :=
  whenConstructed s (runPlan singleTransportError [s.data byte] (.count 1) s)

end Sys2Proof.Machine
end

