-- ==== Sys2Proof/Machine/Operands.lean ====
section
/-! DEFINITION. The operand forms: pin positions (40_pinmap.md R100), the cursor address (45_display_controller.md R152),
the glyph slot (R154), the scroll direction (R156) and the line count of the function set (44_init_sequence.md R141). -/

namespace Sys2Proof.Machine

/-- The position operand of each signal, absent for an absent `rw` or `bl` (R100). -/
def positionOperands (p : PinOperands) : PerSignal (Option Byte) :=
  ⟨some p.rs, p.rw, some p.en, p.bl, some p.d0, some p.d1, some p.d2, some p.d3⟩

/-- The signals whose position is above 7 (R100's first check). -/
def rangeFaults (x : PerSignal (Option Byte)) : List PinFault :=
  allSignals.filterMap fun s =>
    match x.get s with
    | some p => if 7 < p.toNat then some (.range s) else none
    | none => none

/-- The pairs of present signals that share a position (R100's second check). R100 and R101 give the two names of a
conflict no order, so each pair is listed in both orders, and which pair a ConfigurationError names, and in which order,
is the model's free choice (DESIGN CHOICE, log 9). -/
def conflictFaults (x : PerSignal (Option Byte)) : List PinFault :=
  (allSignals.product allSignals).filterMap fun (s, t) =>
    if s ≠ t ∧ x.get s = x.get t ∧ x.get s ≠ none then some (.conflict s t) else none

/-- The faults of an operand tuple that may be reported: range faults in preference to conflicts (60_exceptions.md
R176). -/
def pinFaults (x : PerSignal (Option Byte)) : List PinFault :=
  match rangeFaults x with
  | [] => conflictFaults x
  | faults => faults

/-- The value of `POS[s]` for an operand that passed the checks (R100). -/
def positionOf (p : Option Byte) : Option (Fin 8) := p.map fun b => Fin.ofNat 8 b.toNat

/-- The value of `MASK[s]`: `1 << POS[s]`, or 0x00 for an absent signal (R100; 10_state.md R21, R22). -/
def maskOf : Option (Fin 8) → Byte
  | none => 0
  | some k => 1#8 <<< k.val

/-- `ROW_OFFSET[0..3]` (20_memory.md R51). -/
def rowOffset (row : Byte) : Nat :=
  match row.toNat with
  | 0 => 0x00
  | 1 => 0x40
  | 2 => 0x14
  | _ => 0x54

/-- `ROW_OFFSET[row] + col`, an exact sum (R152; 30_encoding.md R84). -/
def cursorSum (col row : Byte) : Nat := rowOffset row + col.toNat

/-- The argument checks of `set_cursor`, row first, and the address (R152; 60_exceptions.md R176). -/
def cursorAddress (s : State) (col row : Byte) : Except ArgName Nat :=
  if 3 < row.toNat ∨ s.rows.toNat ≤ row.toNat then .error .row
  else if s.cols.toNat ≤ col.toNat then .error .col
  else if 0x7F < cursorSum col row then .error .col
  else .ok (cursorSum col row)

/-- `0x80 | a` (30_encoding.md R83). -/
def cursorByte (a : Nat) : Byte := 0x80#8 ||| BitVec.ofNat 8 a

/-- `0x40 | ((slot & 0x07) << 3)` (R154). -/
def glyphByte (slot : Byte) : Byte := 0x40#8 ||| ((slot &&& 0x07#8) <<< 3)

/-- `SCROLL_CMD[direction]` (R156). -/
def scrollByte (c : Config) : ScrollDir → Byte
  | .left => c.scrollLeft
  | .right => c.scrollRight

/-- The function-set byte `0x20 | (rows > 1 ? 0x08 : 0)` (44_init_sequence.md R141). -/
def functionSetByte (rows : Byte) : Byte := 0x20#8 ||| (if 1 < rows.toNat then 0x08#8 else 0x00#8)

end Sys2Proof.Machine
end

