-- ==== Sys2Proof/Machine/TransactionBatcher.lean ====
section
/-! DEFINITION. TransactionBatcher family: `batch` and `write_bytes` (43_transaction_batcher.md). -/

namespace Sys2Proof.Machine

/-- The loop of `batch` (R131): `cur` holds the transaction being assembled and `CNT` its length. The flush test runs
before an instruction is added; the last transaction is always flushed, and each flush returns `CNT` to 0
(10_state.md R33). Answers the state (only `CNT` moves) and the transactions. -/
def batchLoop (s : State) (cur : List Byte) : List Byte → State × List (List Byte)
  | [] => (s.setCnt 0, [cur])
  | b :: rest =>
    if frameBound s.cfg - 4 < s.cnt then
      let r := batchLoop (s.setCnt 4) (encodeInstr s.mask s.lit (.data b)) rest
      (r.1, cur :: r.2)
    else batchLoop (s.setCnt (s.cnt + 4)) (cur ++ encodeInstr s.mask s.lit (.data b)) rest

/-- `batch(bs)`: the byte lists of the transactions for the Data instructions of `bs`; none for none (R131). -/
def batch (s : State) (bs : List Byte) : State × List (List Byte) :=
  match bs with
  | [] => (s.setCnt 0, [])
  | b :: rest => batchLoop (s.setCnt 0) [] (b :: rest)

/-- `TransportError(offset)` of the data transaction `j`: the index of its first byte, `j * K` (60_exceptions.md R173). -/
def dataTransportError (c : Config) (j : Nat) : OpError := .transport (j * perTransaction c)

/-- `write_bytes(buffer)` (R130). -/
def execWriteBytes (buffer : List Byte) (s : State) : Host.Outcome State Fault Refusal :=
  whenConstructed s
    (runPlan (dataTransportError s.cfg) ((batch s buffer).2.map .tx) (.count buffer.length) (batch s buffer).1)

end Sys2Proof.Machine
end

