-- ==== Sys2Proof/Machine/DisplayController.lean ====
section
/-! DEFINITION. DisplayController family: `clear`, `home`, `set_cursor`, `create_glyph`, `scroll`, `set_backlight`
(45_display_controller.md). -/

namespace Sys2Proof.Machine

/-- `clear()` (R150). -/
def execClear (s : State) : Host.Outcome State Fault Refusal :=
  whenConstructed s (runPlan singleTransportError [s.cmd 0x01, .delay .settle] .done s)

/-- `home()` (R151). -/
def execHome (s : State) : Host.Outcome State Fault Refusal :=
  whenConstructed s (runPlan singleTransportError [s.cmd 0x02, .delay .settle] .done s)

/-- `set_cursor(col, row)`: the argument checks, then the command (R152). -/
def execSetCursor (col row : Byte) (s : State) : Host.Outcome State Fault Refusal :=
  whenConstructed s
    (match cursorAddress s col row with
    | .error which => raise s (.invalidArgument which)
    | .ok a => runPlan singleTransportError [s.cmd (cursorByte a)] .done s)

/-- `TransportError(offset)` of `create_glyph`: transaction 0 is the address command, the others carry the rows
(60_exceptions.md R173). -/
def glyphTransportError (c : Config) (j : Nat) : OpError := .transport ((j - 1) * perTransaction c)

/-- `create_glyph(slot, bitmap)` (R154). -/
def execCreateGlyph (slot : Byte) (bitmap : List Byte) (s : State) : Host.Outcome State Fault Refusal :=
  whenConstructed s
    (runPlan (glyphTransportError s.cfg) (s.cmd (glyphByte slot) :: (batch s bitmap).2.map .tx) .done
      (batch s bitmap).1)

/-- `scroll(direction)` (R156). -/
def execScroll (direction : ScrollDir) (s : State) : Host.Outcome State Fault Refusal :=
  whenConstructed s (runPlan singleTransportError [s.cmd (scrollByte s.cfg direction)] .done s)

/-- `set_backlight(level)`: the level, then the one re-latch byte (R157). -/
def execSetBacklight (level : Byte) (s : State) : Host.Outcome State Fault Refusal :=
  whenConstructed s
    (runPlan singleTransportError [.set (.bl level), .tx [relatchByte s.mask level]] .done s)

end Sys2Proof.Machine
end

