-- ==== Sys2Proof/WellFormed.lean ====
section
/-! DEFINITION. When a term of `Instr` is an operation of 30_encoding.md R70. Operand widths are in the types; what is
left to check is the length of a glyph's bitmap (`GLYPH_LEN` = 8, 00_scope.md R8). -/

namespace Sys2Proof

/-- `GLYPH_LEN`, the bytes of one glyph bitmap (00_scope.md R8). -/
def glyphLen : Nat := 8

/-- Is the term an operation the host port can carry? A pin position out of range is one: `construct` itself reports it
(30_encoding.md R71, R87). -/
def Instr.wellFormed : Instr → Bool
  | .construct _ => true
  | .initDisplay _ _ => true
  | .clear => true
  | .home => true
  | .setCursor _ _ => true
  | .display _ => true
  | .cursor _ => true
  | .blink _ => true
  | .scroll _ => true
  | .entryMode _ _ => true
  | .setBacklight _ => true
  | .createGlyph _ bitmap => bitmap.length == glyphLen
  | .writeByte _ => true
  | .writeBytes _ => true
  | .sendRawCommand _ => true

/-- The proposition the statements use. -/
abbrev WellFormed (i : Instr) : Prop := i.wellFormed = true

end Sys2Proof
end

