-- ==== Sys2Proof/Decode.lean ====
section
/-! DEFINITION. The host port's binary form, its decoder and its encoder (30_encoding.md R70, R71, R74, R86).
R70 gives OPSEL and each operand a port of its own and no packed word; the model lays the ports of one request out as a
list of bytes, OPSEL first and then the operands in R70's order (log 1): an 8-bit operand is its byte, a one-bit operand
is 0 or 1, an optional pin position is `0, 0` (absent) or `1, p`, a buffer is its bytes. -/

namespace Sys2Proof

/-- OPSEL: the low four bits of an image's first byte (R70; opcode_table.json `mask` 0xF; log 2). -/
def opselOf (b : Byte) : BitVec 4 := b.setWidth 4

/-- A one-bit operand's byte (R74). -/
def decodeBit (b : Byte) : Except DecodeError Bool :=
  if b = 0 then .ok false else if b = 1 then .ok true else .error .notOneBit

/-- An optional pin position's two bytes. -/
def decodePin (flag p : Byte) : Except DecodeError (Option Byte) :=
  if flag = 1 then .ok (some p)
  else if flag = 0 ∧ p = 0 then .ok none
  else .error .notAnOptionalPin

/-- Entry direction: `RTL` = 0, `LTR` = 1 (R74). -/
def entryDirOf (b : Bool) : EntryDir := if b then .ltr else .rtl

/-- Scroll direction: `left` = 0, `right` = 1 (R74). -/
def scrollDirOf (b : Bool) : ScrollDir := if b then .right else .left

/-- Format F-PIN. -/
def decodePins : List Byte → Except DecodeError Instr
  | [rs, rwFlag, rw, en, blFlag, bl, d0, d1, d2, d3] =>
    match decodePin rwFlag rw, decodePin blFlag bl with
    | .ok rw', .ok bl' =>
      .ok (.construct { rs := rs, rw := rw', en := en, bl := bl', d0 := d0, d1 := d1, d2 := d2, d3 := d3 })
    | .error e, _ => .error e
    | _, .error e => .error e
  | _ => .error .wrongOperandCount

/-- Formats F-NONE. -/
def decodeNone (i : Instr) : List Byte → Except DecodeError Instr
  | [] => .ok i
  | _ => .error .wrongOperandCount

/-- Formats of one 8-bit operand: F-LVL, F-BYTE. -/
def decodeOne (mk : Byte → Instr) : List Byte → Except DecodeError Instr
  | [b] => .ok (mk b)
  | _ => .error .wrongOperandCount

/-- Formats of two 8-bit operands: F-GEOM, F-POS. -/
def decodeTwo (mk : Byte → Byte → Instr) : List Byte → Except DecodeError Instr
  | [a, b] => .ok (mk a b)
  | _ => .error .wrongOperandCount

/-- Formats of one one-bit operand: F-BOOL, F-SDIR. -/
def decodeFlag (mk : Bool → Instr) : List Byte → Except DecodeError Instr
  | [b] => (decodeBit b).map mk
  | _ => .error .wrongOperandCount

/-- Format F-EM: direction, then autoscroll. -/
def decodeEntry : List Byte → Except DecodeError Instr
  | [d, a] =>
    match decodeBit d, decodeBit a with
    | .ok d', .ok a' => .ok (.entryMode (entryDirOf d') a')
    | .error e, _ => .error e
    | _, .error e => .error e
  | _ => .error .wrongOperandCount

/-- Format F-GLYPH: the slot, then eight bitmap bytes. -/
def decodeGlyph : List Byte → Except DecodeError Instr
  | slot :: bitmap => if bitmap.length = glyphLen then .ok (.createGlyph slot bitmap) else .error .wrongOperandCount
  | [] => .error .wrongOperandCount

/-- The operation that OPSEL selects, read from its operand bytes (R70). OPSEL 15 selects nothing (R86). -/
def decodeOperands (opsel : BitVec 4) (operands : List Byte) : Except DecodeError Instr :=
  match opsel.toNat with
  | 0 => decodePins operands
  | 1 => decodeTwo .initDisplay operands
  | 2 => decodeNone .clear operands
  | 3 => decodeNone .home operands
  | 4 => decodeTwo .setCursor operands
  | 5 => decodeFlag .display operands
  | 6 => decodeFlag .cursor operands
  | 7 => decodeFlag .blink operands
  | 8 => decodeFlag (fun b => .scroll (scrollDirOf b)) operands
  | 9 => decodeEntry operands
  | 10 => decodeOne .setBacklight operands
  | 11 => decodeGlyph operands
  | 12 => decodeOne .writeByte operands
  | 13 => .ok (.writeBytes operands)
  | 14 => decodeOne .sendRawCommand operands
  | _ => .error .reservedOpsel

/-- The decoder: total on any bytes, rejecting by name. -/
def decode : List Byte → Except DecodeError Instr
  | [] => .error .emptyImage
  | first :: operands => decodeOperands (opselOf first) operands

/-- The OPSEL code of an operation (R70). -/
def Instr.opsel : Instr → BitVec 4
  | .construct _ => 0
  | .initDisplay _ _ => 1
  | .clear => 2
  | .home => 3
  | .setCursor _ _ => 4
  | .display _ => 5
  | .cursor _ => 6
  | .blink _ => 7
  | .scroll _ => 8
  | .entryMode _ _ => 9
  | .setBacklight _ => 10
  | .createGlyph _ _ => 11
  | .writeByte _ => 12
  | .writeBytes _ => 13
  | .sendRawCommand _ => 14

/-- The byte of a one-bit operand (R74). -/
def encodeBit (b : Bool) : Byte := if b then 1 else 0

/-- The two bytes of an optional pin position. -/
def encodePin : Option Byte → List Byte
  | none => [0, 0]
  | some p => [1, p]

/-- `RTL` = 0, `LTR` = 1 (R74). -/
def EntryDir.toBool : EntryDir → Bool
  | .rtl => false
  | .ltr => true

/-- `left` = 0, `right` = 1 (R74). -/
def ScrollDir.toBool : ScrollDir → Bool
  | .left => false
  | .right => true

/-- The operand bytes of an operation, in R70's order. -/
def Instr.operands : Instr → List Byte
  | .construct p =>
    [p.rs] ++ encodePin p.rw ++ [p.en] ++ encodePin p.bl ++ [p.d0, p.d1, p.d2, p.d3]
  | .initDisplay columns rows => [columns, rows]
  | .clear => []
  | .home => []
  | .setCursor col row => [col, row]
  | .display on => [encodeBit on]
  | .cursor on => [encodeBit on]
  | .blink on => [encodeBit on]
  | .scroll direction => [encodeBit direction.toBool]
  | .entryMode direction autoscroll => [encodeBit direction.toBool, encodeBit autoscroll]
  | .setBacklight level => [level]
  | .createGlyph slot bitmap => slot :: bitmap
  | .writeByte byte => [byte]
  | .writeBytes buffer => buffer
  | .sendRawCommand byte => [byte]

/-- The encoder: the port image of an operation. -/
def encode (i : Instr) : List Byte := i.opsel.setWidth 8 :: i.operands

/-- How many operand bytes the format of an OPSEL has; for `write_bytes`, whose buffer may have any length, the fewest
(log 3). -/
def operandCount (opsel : BitVec 4) : Nat :=
  match opsel.toNat with
  | 0 => 10
  | 1 => 2
  | 4 => 2
  | 5 => 1
  | 6 => 1
  | 7 => 1
  | 8 => 1
  | 9 => 2
  | 10 => 1
  | 11 => 9
  | 12 => 1
  | 14 => 1
  | _ => 0

/-- The port image whose bits are `w` (bit 0 the least significant bit of the OPSEL byte, operand bytes counting on from
bit 8), of the format's length at least, every bit above `nbits` being 0. -/
def imageOfWord (nbits w : Nat) : List Byte :=
  let bits := w % 2 ^ nbits
  let first := BitVec.ofNat 8 bits
  first :: (List.range (max (operandCount (opselOf first)) (nbits / 8 - 1))).map
    (fun k => BitVec.ofNat 8 (bits / 2 ^ (8 * (k + 1))))

/-- The operation the decoder reads from an image whose bits are `w`, numbered as spec/opcode_table.json numbers them. -/
def decodeTableWord (nbits w : Nat) : Option Instr :=
  match decode (imageOfWord nbits w) with
  | .ok i => some i
  | .error _ => none

end Sys2Proof
end

