-- ==== Sys2Proof/Machine/Flags.lean ====
section
/-! DEFINITION. The flag groups `EM` and `DC`: their flags, their updates and the instruction bytes that carry them
(10_state.md R26, R27; 41_display_state.md R110 to R113; 30_encoding.md R83, R84). The block has no condition flags
(10_state.md R35). -/

namespace Sys2Proof.Machine

/-- `EM[1]`, `dir`: left-to-right (10_state.md R26). -/
def emDir (em : BitVec 2) : EntryDir := entryDirOf (em.getLsbD 1)

/-- `EM[0]`, `as`: autoscroll (10_state.md R26). -/
def emAutoscroll (em : BitVec 2) : Bool := em.getLsbD 0

/-- `(direction << 1) | autoscroll` (R113). -/
def emOf (direction : EntryDir) (autoscroll : Bool) : BitVec 2 :=
  ((BitVec.ofBool direction.toBool).setWidth 2 <<< 1) ||| (BitVec.ofBool autoscroll).setWidth 2

/-- The entry-mode instruction byte `0x04 | EM` (R26). -/
def emByte (em : BitVec 2) : Byte := 0x04#8 ||| em.setWidth 8

/-- `DC[2]`, `disp` (10_state.md R27). -/
def dcDisp (dc : BitVec 3) : Bool := dc.getLsbD 2

/-- `DC[1]`, `cur` (10_state.md R27). -/
def dcCur (dc : BitVec 3) : Bool := dc.getLsbD 1

/-- `DC[0]`, `blink` (10_state.md R27). -/
def dcBlink (dc : BitVec 3) : Bool := dc.getLsbD 0

/-- `DC` with `disp` replaced: `(DC & 0b011) | (on << 2)` (R110). -/
def dcWithDisp (dc : BitVec 3) (on : Bool) : BitVec 3 := (dc &&& 0b011#3) ||| ((BitVec.ofBool on).setWidth 3 <<< 2)

/-- `DC` with `cur` replaced: `(DC & 0b101) | (on << 1)` (R111). -/
def dcWithCur (dc : BitVec 3) (on : Bool) : BitVec 3 := (dc &&& 0b101#3) ||| ((BitVec.ofBool on).setWidth 3 <<< 1)

/-- `DC` with `blink` replaced: `(DC & 0b110) | on` (R112). -/
def dcWithBlink (dc : BitVec 3) (on : Bool) : BitVec 3 := (dc &&& 0b110#3) ||| (BitVec.ofBool on).setWidth 3

/-- The display-control instruction byte `0x08 | DC` (R27). -/
def dcByte (dc : BitVec 3) : Byte := 0x08#8 ||| dc.setWidth 8

end Sys2Proof.Machine
end

