-- ==== Sys2Proof/Machine/DisplayState.lean ====
section
/-! DEFINITION. DisplayState family: `display`, `cursor`, `blink`, `entry_mode` (41_display_state.md). -/

namespace Sys2Proof.Machine

/-- `Set(DC, DC')`, then the instruction that carries the whole group (R110 to R112, R114). -/
def sendDc (s : State) (dc' : BitVec 3) : Host.Outcome State Fault Refusal :=
  runPlan singleTransportError [.set (.dc dc'), s.cmd (dcByte dc')] .done s

/-- `display(on)` (R110). -/
def execDisplay (on : Bool) (s : State) : Host.Outcome State Fault Refusal :=
  whenConstructed s (sendDc s (dcWithDisp s.dc on))

/-- `cursor(on)` (R111). -/
def execCursor (on : Bool) (s : State) : Host.Outcome State Fault Refusal :=
  whenConstructed s (sendDc s (dcWithCur s.dc on))

/-- `blink(on)` (R112). -/
def execBlink (on : Bool) (s : State) : Host.Outcome State Fault Refusal :=
  whenConstructed s (sendDc s (dcWithBlink s.dc on))

/-- `entry_mode(direction, autoscroll)` (R113). -/
def execEntryMode (direction : EntryDir) (autoscroll : Bool) (s : State) : Host.Outcome State Fault Refusal :=
  whenConstructed s
    (runPlan singleTransportError
      [.set (.em (emOf direction autoscroll)), s.cmd (emByte (emOf direction autoscroll))] .done s)

/-- Pseudo-operation `left_to_right`: set the direction, keep autoscroll (30_encoding.md R75). -/
def State.leftToRight (s : State) : Instr := .entryMode .ltr (emAutoscroll s.em)

/-- Pseudo-operation `right_to_left` (30_encoding.md R75). -/
def State.rightToLeft (s : State) : Instr := .entryMode .rtl (emAutoscroll s.em)

/-- Pseudo-operation `autoscroll_on` (30_encoding.md R75). -/
def State.autoscrollOn (s : State) : Instr := .entryMode (emDir s.em) true

/-- Pseudo-operation `autoscroll_off` (30_encoding.md R75). -/
def State.autoscrollOff (s : State) : Instr := .entryMode (emDir s.em) false

end Sys2Proof.Machine
end

