-- ==== Sys2Proof/Machine/InitSequence.lean ====
section
/-! DEFINITION. InitSequence family: `initialize` (44_init_sequence.md). -/

namespace Sys2Proof.Machine

/-- The flags of the display-on of step 5: `display(true)` on `DC = 0b000` (R141). -/
def dcInitialized : BitVec 3 := 0b100#3

/-- `init_plan(columns, rows)` (R141). -/
def initPlan (s : State) (columns rows : Byte) : List PlanStep :=
  [.set (.cols columns), .set (.rows rows), .set (.em emReset), .set (.dc dcReset),
   .delay .powerup,
   s.rawnib 0x3, .delay .reset1,
   s.rawnib 0x3, .delay .reset2,
   s.rawnib 0x3, .delay .reset3,
   s.rawnib 0x2,
   s.cmd (functionSetByte rows),
   .set (.dc dcInitialized), s.cmd (dcByte dcInitialized),
   s.cmd 0x01, .delay .settle,
   .set (.em emReset), s.cmd (emByte emReset)]

/-- `InitializationFailure(k)`, `k` the number of the failing transaction (R142). -/
def initError (k : Nat) : OpError := .initFailure k

/-- `initialize(columns, rows)` (R140). -/
def execInitDisplay (columns rows : Byte) (s : State) : Host.Outcome State Fault Refusal :=
  whenConstructed s (runPlan initError (initPlan s columns rows) .done s)

end Sys2Proof.Machine
end

