-- ==== Sys2Proof/Machine/PinMap.lean ====
section
/-! DEFINITION. PinMap family: `construct` (40_pinmap.md). -/

namespace Sys2Proof.Machine

/-- The registers that a successful `construct` writes, with their reset values (R100; 10_state.md R30). -/
def State.constructed (s : State) (p : PinOperands) : State :=
  { s with
    pos := (positionOperands p).map positionOf
    mask := ((positionOperands p).map positionOf).map maskOf
    em := emReset
    dc := dcReset
    bl := blReset
    cols := 0
    rows := 0
    cnt := 0
    seq := none
    life := .constructed }

/-- The fault a ConfigurationError names: which of the offending signals or pairs, and in which order the two names of a
pair stand, is a free choice among them (R101; DESIGN CHOICE, log 9). -/
def State.chosenFault (s : State) (first : PinFault) (faults : List PinFault) : PinFault :=
  faults.getD (Config.freeChoice s.draws % faults.length) first

/-- `construct` (R100). -/
def execConstruct (p : PinOperands) (s : State) : Host.Outcome State Fault Refusal :=
  match s.life with
  | .constructed => .refused .alreadyConstructed
  | .unconstructed =>
    match pinFaults (positionOperands p) with
    | [] => complete (s.constructed p) .done
    | f :: rest => raise s.draw (.configuration (s.chosenFault f (f :: rest)))

end Sys2Proof.Machine
end

