-- ==== Sys2Proof/Machine/Dispatch.lean ====
section
/-! DEFINITION. What each operation does: one arm per row of spec/opcode_table.json. -/

namespace Sys2Proof.Machine

def exec (i : Instr) (s : State) : Host.Outcome State Fault Refusal :=
  match i with
  | .construct pins => Sys2Proof.Machine.execConstruct pins s
  | .initDisplay columns rows => Sys2Proof.Machine.execInitDisplay columns rows s
  | .clear => Sys2Proof.Machine.execClear s
  | .home => Sys2Proof.Machine.execHome s
  | .setCursor col row => Sys2Proof.Machine.execSetCursor col row s
  | .display on => Sys2Proof.Machine.execDisplay on s
  | .cursor on => Sys2Proof.Machine.execCursor on s
  | .blink on => Sys2Proof.Machine.execBlink on s
  | .scroll direction => Sys2Proof.Machine.execScroll direction s
  | .entryMode direction autoscroll => Sys2Proof.Machine.execEntryMode direction autoscroll s
  | .setBacklight level => Sys2Proof.Machine.execSetBacklight level s
  | .createGlyph slot bitmap => Sys2Proof.Machine.execCreateGlyph slot bitmap s
  | .writeByte byte => Sys2Proof.Machine.execWriteByte byte s
  | .writeBytes buffer => Sys2Proof.Machine.execWriteBytes buffer s
  | .sendRawCommand byte => Sys2Proof.Machine.execSendRawCommand byte s

end Sys2Proof.Machine
end

