-- ==== Sys2Proof/Machine/HostPort.lean ====
section
/-! DEFINITION. The host port: what the host's next request asks for (20_memory.md R60, 30_encoding.md R70, R86). -/

namespace Sys2Proof.Machine

/-- The refusal of a port image that is no operation (log 16). -/
def refusalOf : DecodeError → Refusal
  | .reservedOpsel => .reservedOperation
  | .emptyImage => .malformedRequest .emptyImage
  | .wrongOperandCount => .malformedRequest .wrongOperandCount
  | .notOneBit => .malformedRequest .notOneBit
  | .notAnOptionalPin => .malformedRequest .notAnOptionalPin

/-- What the host port shows. -/
inductive PortView where
  /-- The host has issued nothing. -/
  | idle
  /-- The host has issued this operation. -/
  | operation (i : Instr)
  /-- The host port holds no operation of R70. -/
  | noOperation (why : DecodeError)
  deriving DecidableEq, Repr

/-- The host's next request, decoded. -/
def State.portView (s : State) : PortView :=
  match s.requests with
  | [] => .idle
  | image :: _ =>
    match decode image with
    | .ok i => .operation i
    | .error why => .noOperation why

/-- The block as the host must have brought it before it may issue a request: every operation but `construct` has a
meaning in a constructed block only (10_state.md R32), so for such a request an unconstructed block is brought up with
`construct_default`, the block's reset (70_reset_and_hazards.md R200, R202; log 20). For every other request, and in a
constructed block, nothing is done. -/
def State.broughtUpFor (s : State) (image : List Byte) : State :=
  match s.life, decode image with
  | .unconstructed, .ok i => if i.isConstruct then s else s.constructed presetDefault
  | _, _ => s

end Sys2Proof.Machine
end

