-- ==== Sys2Proof/Machine/Step.lean ====
section
/-! DEFINITION. One step of the machine: the block takes the host's next operation and performs the whole of it; with no
operation issued it waits (20_memory.md R59, R60; 70_reset_and_hazards.md R200; log 5, log 6). -/

namespace Sys2Proof.Machine

/-- One step. -/
def step (s : State) : Host.Outcome State Fault Refusal :=
  match s.portView with
  | .idle => .next s
  | .operation i => exec i s.takeRequest
  | .noOperation why => .refused (refusalOf why)

/-- The state in which a request, given as a table word, is what the very next step performs: it is the host's next
operation, and the block has been brought up for it (log 20). -/
def State.withFetchWord (s : State) (nbits w : Nat) : State :=
  (s.broughtUpFor (imageOfWord nbits w)).placeRequest (imageOfWord nbits w)

end Sys2Proof.Machine
end

