-- ==== Sys2Proof/Machine/Expander.lean ====
section
/-! DEFINITION. What an observer reads from the bytes on the expander's pins: the output latch (10_state.md R36,
60_exceptions.md R188), the backlight pin (70_reset_and_hazards.md R210), the pin stream of a trace (00_scope.md R15), and
the nibbles that falling edges of `en` latch (60_exceptions.md R189). No operation reads any of them (R57). -/

namespace Sys2Proof.Machine

/-- The expander's output latch: the last byte that reached it; before the first, a free value (U17, log 10). -/
def State.latch (s : State) : Byte := s.pins.getLastD Config.expanderPowerUp

/-- The backlight pin shows the `bl` bit of the latch, not `ST.BL` (10_state.md R36). -/
def State.backlightPin (s : State) : Bool := decide (s.latch &&& s.mask.bl ≠ 0)

/-- The byte list of a trace item. -/
def TraceItem.bytes : TraceItem → List Byte
  | .tx _ bs _ => bs
  | .delay _ _ => []

/-- The pin stream of a trace: the byte lists of its transactions, one after the other (00_scope.md R15). -/
def pinStream (trace : List TraceItem) : List Byte := trace.flatMap TraceItem.bytes

/-- Did the transport answer this item `fail`? -/
def TraceItem.failed : TraceItem → Bool
  | .tx _ _ .fail => true
  | _ => false

/-- What a display takes when the pins go from `before` to `b`, with `later` bytes to follow (60_exceptions.md R189,
log 18): without a falling edge of `en`, nothing; on one "while all other lines hold steady", the nibble and the
register-select level on the lines. R189 does not say which levels are taken when the byte that lowers `en` also changes
another line, as it can after a failed transaction has left `en` high: that is a free value (DESIGN CHOICE, log 25). -/
def latchedAt (m : PerSignal Byte) (before b : Byte) (later : Nat) : List (Bool × Nibble) :=
  if before &&& m.en = 0 ∨ b &&& m.en ≠ 0 then []
  else if before = b ||| m.en then [(decide (b &&& m.rs ≠ 0), unnib m b)]
  else (Config.unsteadyEdge before b later).toList

/-- What such a display reads from bytes that follow `before` on the pins: each nibble with the register-select line
beside it (60_exceptions.md R189, log 18, log 25). -/
def latchedNibbles (m : PerSignal Byte) : Byte → List Byte → List (Bool × Nibble)
  | _, [] => []
  | before, b :: rest => latchedAt m before b rest.length ++ latchedNibbles m b rest

end Sys2Proof.Machine
end

