-- ==== Sys2Proof/Safety.lean ====
section
/-! DEFINITION. The terms in which claims speak: when pin operands are accepted and a pin map is valid, what a legal byte
and a legal transaction are, the invariant of the machine, which operation may write which register and end in which
outcome, and when a run is never refused. -/

namespace Sys2Proof.Machine

/-- Every present position operand is within `[0,7]` (40_pinmap.md R100). -/
def PinsInRange (x : PerSignal (Option Byte)) : Prop := ∀ s p, x.get s = some p → p.toNat ≤ 7

/-- No two present signals have the same position operand (40_pinmap.md R100). -/
def PinsDistinct (x : PerSignal (Option Byte)) : Prop :=
  ∀ s t, s ≠ t → x.get s ≠ none → x.get s ≠ x.get t

/-- The operands pass the two checks of `construct` (40_pinmap.md R100). -/
def PinsAccepted (p : PinOperands) : Prop :=
  PinsInRange (positionOperands p) ∧ PinsDistinct (positionOperands p)

/-- The invariant of a constructed block (10_state.md R21 to R23): only `rw` and `bl` may be absent, present positions
are pairwise distinct, and each mask is its position's. -/
structure PinMapValid (pos : PerSignal (Option (Fin 8))) (mask : PerSignal Byte) : Prop where
  mandatory : ∀ s, s ≠ .rw → s ≠ .bl → pos.get s ≠ none
  distinct : ∀ s t, s ≠ t → pos.get s ≠ none → pos.get s ≠ pos.get t
  masks : ∀ s, mask.get s = maskOf (pos.get s)

/-- The bits an emitted byte may set: those of every signal but `rw` (20_memory.md R58). -/
def drivenBits (m : PerSignal Byte) : Byte := m.rs ||| m.en ||| m.bl ||| m.d0 ||| m.d1 ||| m.d2 ||| m.d3

/-- Bits of no present signal are 0, and so is the bit of `rw` (20_memory.md R58). -/
def ByteLegal (m : PerSignal Byte) (b : Byte) : Prop := b &&& ~~~drivenBits m = 0 ∧ b &&& m.rw = 0

/-- The lengths a transaction can have: a re-latch, a raw nibble, or whole instructions (30_encoding.md R90). -/
def LegalLength (n : Nat) : Prop := n = 1 ∨ n = 2 ∨ (0 < n ∧ 4 ∣ n)

/-- A trace item the block can have produced: a transaction goes to `I2C_ADDR`, has a legal length within the frame
bound, and its bytes are legal (30_encoding.md R90, 43_transaction_batcher.md R131, 20_memory.md R58). -/
def ItemLegal (c : Config) (m : PerSignal Byte) : TraceItem → Prop
  | .delay _ _ => True
  | .tx addr bytes _ =>
    addr = c.i2cAddr ∧ LegalLength bytes.length ∧ bytes.length ≤ frameBound c ∧ ∀ b ∈ bytes, ByteLegal m b

/-- The invariant of the machine between operations. -/
structure State.Inv (s : State) : Prop where
  /-- `CNT` holds nothing and `SEQ` is idle (10_state.md R33, R34). -/
  idle : s.cnt = 0 ∧ s.seq = none
  /-- Nothing has been emitted before construction (10_state.md R32). -/
  fresh : s.life = .unconstructed → s.trace = [] ∧ s.pins = []
  /-- A constructed block has a valid pin map (10_state.md R23). -/
  pinMap : s.life = .constructed → PinMapValid s.pos s.mask
  /-- Every transaction ever made is a legal one. -/
  traceLegal : ∀ item ∈ s.trace, ItemLegal s.cfg s.mask item
  /-- Every byte that reached the pins is a legal one. -/
  pinsLegal : ∀ b ∈ s.pins, ByteLegal s.mask b
  /-- While no transaction has failed, the pins saw exactly the pin stream of the trace (00_scope.md R15). -/
  stream : (∀ item ∈ s.trace, item.failed = false) → s.pins = pinStream s.trace

/-- Which operations may write `EM` (10_state.md R26). -/
def writesEm : Instr → Bool
  | .construct _ => true
  | .initDisplay _ _ => true
  | .entryMode _ _ => true
  | _ => false

/-- Which operations may write `DC` (10_state.md R27). -/
def writesDc : Instr → Bool
  | .construct _ => true
  | .initDisplay _ _ => true
  | .display _ => true
  | .cursor _ => true
  | .blink _ => true
  | _ => false

/-- Which operations may write `BL` (10_state.md R28). -/
def writesBl : Instr → Bool
  | .construct _ => true
  | .setBacklight _ => true
  | _ => false

/-- Which operations may write `COLS` and `ROWS` (10_state.md R29). -/
def writesGeometry : Instr → Bool
  | .construct _ => true
  | .initDisplay _ _ => true
  | _ => false

/-- Which operations may write `CNT` (10_state.md R33, R30). -/
def writesCnt : Instr → Bool
  | .construct _ => true
  | .createGlyph _ _ => true
  | .writeBytes _ => true
  | _ => false

/-- Which operations contain delays (45_display_controller.md R158). -/
def mayDelay : Instr → Bool
  | .clear => true
  | .home => true
  | .initDisplay _ _ => true
  | _ => false

/-- Which outcome an operation can end with (60_exceptions.md R175; results 30_encoding.md R72; infos R172, R173). -/
def mayReport : Instr → Report → Bool
  | .construct _, .done => true
  | .construct _, .error (.configuration _) => true
  | .construct _, _ => false
  | .initDisplay _ _, .done => true
  | .initDisplay _ _, .error (.initFailure k) => k < 8
  | .initDisplay _ _, _ => false
  | .setCursor _ _, .done => true
  | .setCursor _ _, .error (.transport offset) => offset = 0
  | .setCursor _ _, .error (.invalidArgument _) => true
  | .setCursor _ _, _ => false
  | .createGlyph _ bitmap, r =>
    match r with
    | .done => true
    | .error (.transport offset) => offset < max bitmap.length 1
    | _ => false
  | .writeByte _, .count n => n = 1
  | .writeByte _, .error (.transport offset) => offset = 0
  | .writeByte _, _ => false
  | .writeBytes buffer, r =>
    match r with
    | .count n => n = buffer.length
    | .error (.transport offset) => offset < buffer.length
    | _ => false
  | _, .done => true
  | _, .error (.transport offset) => offset = 0
  | _, _ => false

/-- The most transactions an operation can make, whatever the frame bound. -/
def maxTransactions : Instr → Nat
  | .construct _ => 0
  | .initDisplay _ _ => 8
  | .createGlyph _ bitmap => bitmap.length + 1
  | .writeBytes buffer => buffer.length
  | _ => 1

/-- The state with another `FRAME_BOUND`, given as its excess over 4. -/
def State.withFrameRoom (s : State) (room : Nat) : State := { s with cfg := { s.cfg with frameRoom := room } }

/-- The trace of an `initialize` whose eight transactions are all answered `ok` (44_init_sequence.md R141). -/
def initTrace (s : State) (rows : Byte) : List TraceItem :=
  let nibble (n : Nibble) : TraceItem := .tx s.cfg.i2cAddr (pair s.mask s.lit false n) .ok
  let command (v : Byte) : TraceItem := .tx s.cfg.i2cAddr (frame s.mask s.lit false v) .ok
  [.delay .powerup s.cfg.tPowerup,
   nibble 0x3, .delay .reset1 s.cfg.tReset1,
   nibble 0x3, .delay .reset2 s.cfg.tReset2,
   nibble 0x3, .delay .reset3 s.cfg.tReset3,
   nibble 0x2,
   command (if 1 < rows.toNat then 0x28 else 0x20),
   command 0x0C,
   command 0x01, .delay .settle s.cfg.tSettle,
   command 0x06]

/-- Where transaction `k` of `initialize` stands in its trace (44_init_sequence.md R142). -/
def initIndex (k : Nat) : Nat := [1, 3, 5, 7, 8, 9, 10, 12].getD k 13

/-- A constructed block whose host issues only operations of R70 other than `construct`: it can go on
(10_state.md R32). -/
def State.Ready (s : State) : Prop :=
  s.life = .constructed ∧
    ∀ image ∈ s.requests, ∃ i, decode image = .ok i ∧ i.isConstruct = false

end Sys2Proof.Machine
end

