-- ==== Sys2Proof/Certificates/Slice0/Obligations.lean ====
section
/-! DEFINITION. The statements for the provers. Each docstring names the rule of spec/ it formalises. An equation
`exec i s = .next t` says that the operation completes and says all of the next state: whatever `t` does not name is
unchanged. Where a rule rests on a decision of the spec (92_eei_decisions.md, log 24), the docstring says so. -/

open Sys2Proof Sys2Proof.Machine

/-! ### The encoder -/

/-- R76, R77: `nib` ORs the masks of the data lines whose nibble bit is set; `base` ORs the backlight mask when `BL > 0`
and the register-select mask when `rs` is 1; a zero backlight mask adds nothing. -/
def Obligations.NibAndBaseShowTheirSignals : Prop :=
  (∀ (m : PerSignal Byte) (n : Nibble),
    nib m n = (if n.getLsbD 0 then m.d0 else 0) ||| (if n.getLsbD 1 then m.d1 else 0) |||
      (if n.getLsbD 2 then m.d2 else 0) ||| (if n.getLsbD 3 then m.d3 else 0)) ∧
  (∀ m : PerSignal Byte, nib m 0x0 = 0x00 ∧ nib m 0xF = m.d0 ||| m.d1 ||| m.d2 ||| m.d3) ∧
  (∀ (s : State) (rs : Bool),
    base s.mask s.lit rs = (if 0 < s.bl.toNat then s.mask.bl else 0) ||| (if rs then s.mask.rs else 0)) ∧
  (∀ (m : PerSignal Byte) (lit rs : Bool), m.bl = 0x00 → base m lit rs = if rs then m.rs else 0)

/-- R79 (and the source's wire-level formula, S1): an instruction byte becomes the high pair and then the low pair, each
enable high and then enable low; `cmd` and `data` carry it in one transaction with `rs` 0 and 1; the worked example. -/
def Obligations.FrameIsTheFourByteContract : Prop :=
  (∀ (s : State) (rs : Bool) (v : Byte),
    let b := (if 0 < s.bl.toNat then s.mask.bl else 0) ||| (if rs then s.mask.rs else 0)
    let high := b ||| (if v.getLsbD 4 then s.mask.d0 else 0) ||| (if v.getLsbD 5 then s.mask.d1 else 0) |||
      (if v.getLsbD 6 then s.mask.d2 else 0) ||| (if v.getLsbD 7 then s.mask.d3 else 0)
    let low := b ||| (if v.getLsbD 0 then s.mask.d0 else 0) ||| (if v.getLsbD 1 then s.mask.d1 else 0) |||
      (if v.getLsbD 2 then s.mask.d2 else 0) ||| (if v.getLsbD 3 then s.mask.d3 else 0)
    frame s.mask s.lit rs v = [high ||| s.mask.en, high, low ||| s.mask.en, low]) ∧
  (∀ (s : State) (v : Byte),
    s.cmd v = .tx (frame s.mask s.lit false v) ∧ s.data v = .tx (frame s.mask s.lit true v)) ∧
  frame ⟨0x01, 0x00, 0x04, 0x08, 0x10, 0x20, 0x40, 0x80⟩ (isLit 0) true 0x48 = [0x45, 0x41, 0x85, 0x81]

/-- R82 (c): decoding the two emitted nibbles, high then low, gives the instruction byte back. -/
def Obligations.FrameRoundTrip : Prop :=
  ∀ (pos : PerSignal (Option (Fin 8))) (m : PerSignal Byte), PinMapValid pos m →
    ∀ (lit rs : Bool) (v : Byte), ∃ f0 f1 f2 f3, frame m lit rs v = [f0, f1, f2, f3] ∧
      ((unnib m f1).setWidth 8 <<< 4) ||| (unnib m f3).setWidth 8 = v

/-- R82 (a), (b): four bytes; each enable-high byte is its enable-low byte with the enable bit set, and the enable-low
byte has it clear. -/
def Obligations.FramePulsesEnableTwice : Prop :=
  ∀ (pos : PerSignal (Option (Fin 8))) (m : PerSignal Byte), PinMapValid pos m →
    ∀ (lit rs : Bool) (v : Byte), ∃ f0 f1 f2 f3, frame m lit rs v = [f0, f1, f2, f3] ∧
      f0 = f1 ||| m.en ∧ f2 = f3 ||| m.en ∧ f1 &&& m.en = 0 ∧ f3 &&& m.en = 0 ∧ m.en ≠ 0

/-- R82 (d): in all four bytes the register-select bit is set exactly for data, and the backlight bit exactly when the
backlight signal is present and on. -/
def Obligations.FrameControlBitsHoldSteady : Prop :=
  ∀ (pos : PerSignal (Option (Fin 8))) (m : PerSignal Byte), PinMapValid pos m →
    ∀ (lit rs : Bool) (v b : Byte), b ∈ frame m lit rs v →
      (b &&& m.rs ≠ 0 ↔ rs = true) ∧ (b &&& m.bl ≠ 0 ↔ pos.bl ≠ none ∧ lit = true)

/-- R80: the read/write mask occurs in no encoding function; its bit is 0 in every emitted byte; its only effect is that
no other signal has its position. -/
def Obligations.ReadWriteLineIsNeverAsserted : Prop :=
  (∀ (m : PerSignal Byte) (x : Byte) (lit rs : Bool) (n : Nibble) (v level : Byte),
    nib { m with rw := x } n = nib m n ∧ base { m with rw := x } lit rs = base m lit rs ∧
    pair { m with rw := x } lit rs n = pair m lit rs n ∧ frame { m with rw := x } lit rs v = frame m lit rs v ∧
    relatchByte { m with rw := x } level = relatchByte m level) ∧
  (∀ (pos : PerSignal (Option (Fin 8))) (m : PerSignal Byte), PinMapValid pos m →
    (∀ (lit rs : Bool) (n : Nibble) (v level b : Byte),
      b ∈ frame m lit rs v ∨ b ∈ pair m lit rs n ∨ b = relatchByte m level → b &&& m.rw = 0) ∧
    (∀ (k : Fin 8) (t : Signal), pos.rw = some k → t ≠ .rw → pos.get t ≠ some k))

/-- R58: a bit position of no present signal is 0 in every byte the block emits. -/
def Obligations.UnassignedBitsStayZero : Prop :=
  ∀ (pos : PerSignal (Option (Fin 8))) (m : PerSignal Byte), PinMapValid pos m →
    ∀ (k : Fin 8), (∀ t, pos.get t ≠ some k) →
      ∀ (lit rs : Bool) (n : Nibble) (v level b : Byte),
        b ∈ frame m lit rs v ∨ b ∈ pair m lit rs n ∨ b = relatchByte m level → b.getLsbD k.val = false

/-- R189 with R79: a display that takes a nibble on each falling edge of `en` reads from the frames of any bytes exactly
their nibbles, high first, each with the register-select level, whatever byte stood on the pins before. Every falling
edge here is one with the other lines steady, so it holds whatever an unsteady one gives (log 18, log 25). -/
def Obligations.FallingEdgesReadTheFrames : Prop :=
  ∀ (pos : PerSignal (Option (Fin 8))) (m : PerSignal Byte), PinMapValid pos m →
    ∀ (lit rs : Bool) (before : Byte) (bytes : List Byte),
      latchedNibbles m before (bytes.flatMap (frame m lit rs)) =
        bytes.flatMap fun v => [(rs, v.extractLsb' 4 4), (rs, v.extractLsb' 0 4)]

/-! ### The transport -/

/-- R52, R15 (a failed transaction delivers any leading part of its bytes: decision D20, U5, log 8): a transaction is in
the trace with its address, bytes and answer; on `ok` all its bytes follow on the pins, on `fail` the first `n` of them,
for every `n` there is such a reply; no register changes. -/
def Obligations.TransactionIsRecordedAndDelivered : Prop :=
  ∀ (s : State) (bytes : List Byte),
    (s.transact bytes).trace = s.trace ++ [.tx s.cfg.i2cAddr bytes s.nextAnswer] ∧
    (s.nextAnswer = .ok → (s.transact bytes).pins = s.pins ++ bytes) ∧
    (s.nextAnswer = .fail → ∃ n, (s.transact bytes).pins = s.pins ++ bytes.take n) ∧
    (∀ (n : Nat) (rest : List Reply), s.replies = .fail n :: rest →
      s.nextAnswer = .fail ∧ (s.transact bytes).pins = s.pins ++ bytes.take n ∧ (s.transact bytes).replies = rest) ∧
    (∀ rest : List Reply, s.replies = .ok :: rest → s.nextAnswer = .ok ∧ (s.transact bytes).replies = rest) ∧
    { s.transact bytes with
      trace := s.trace, pins := s.pins, replies := s.replies, draws := s.draws } = s

/-! ### PinMap -/

/-- R100, R30: with operands that pass the checks, an unconstructed block becomes constructed: every position and mask
from the operands, every other register at its reset value, no transaction and no delay. -/
def Obligations.ConstructBuildsThePinMap : Prop :=
  ∀ (p : PinOperands) (s : State), s.life = .unconstructed → PinsAccepted p →
    ∃ (pos : PerSignal (Option (Fin 8))) (mask : PerSignal Byte),
      (∀ t, (pos.get t).map Fin.val = ((positionOperands p).get t).map BitVec.toNat) ∧
      (∀ t, mask.get t =
        match (positionOperands p).get t with
        | none => 0x00
        | some b => 1#8 <<< b.toNat) ∧
      exec (.construct p) s = .next
        { s with
          life := .constructed, pos := pos, mask := mask, em := 0b10#2, dc := 0b000#3, bl := 0, cols := 0, rows := 0
          cnt := 0, seq := none, reports := s.reports ++ [.done] }

/-- R100, R101: operands that fail a check raise ConfigurationError and write no register. The named fault is one the
operands have, a range fault when there is one (R176, decision D23); which of several, and the order of a conflict's
two names, is the model's free choice (log 9). -/
def Obligations.ConstructRejectsBadPins : Prop :=
  ∀ (p : PinOperands) (s : State), s.life = .unconstructed → ¬ PinsAccepted p →
    ∃ f, exec (.construct p) s = .next
        { s with draws := s.draws + 1, reports := s.reports ++ [.error (.configuration f)] } ∧
      (match f with
      | .range t => ∃ b, (positionOperands p).get t = some b ∧ 7 < b.toNat
      | .conflict t u => t ≠ u ∧ (positionOperands p).get t ≠ none ∧
          (positionOperands p).get t = (positionOperands p).get u ∧ PinsInRange (positionOperands p))

/-- R103: after operands that pass the checks, the masks of present signals are pairwise disjoint, each is `1 << POS`,
and absent signals have mask 0; after operands that fail one, the block is still unconstructed. -/
def Obligations.MasksAreDisjointPowersOfTwo : Prop :=
  ∀ (p : PinOperands) (s t : State), s.life = .unconstructed → exec (.construct p) s = .next t →
    (PinsAccepted p → t.life = .constructed ∧
      (∀ a b, a ≠ b → t.mask.get a &&& t.mask.get b = 0) ∧
      (∀ a, t.mask.get a =
        match t.pos.get a with
        | none => 0x00
        | some k => 1#8 <<< k.val)) ∧
    (¬ PinsAccepted p → t.life = .unconstructed)

/-- R102: `construct_default` always succeeds, with the masks of the default mapping. -/
def Obligations.ConstructDefaultSucceeds : Prop :=
  ∀ s : State, s.life = .unconstructed →
    exec Instr.constructDefault s = .next
      { s with
        life := .constructed
        pos := ⟨some 0, none, some 2, some 3, some 4, some 5, some 6, some 7⟩
        mask := ⟨0x01, 0x00, 0x04, 0x08, 0x10, 0x20, 0x40, 0x80⟩
        em := 0b10#2, dc := 0b000#3, bl := 0, cols := 0, rows := 0, cnt := 0, seq := none
        reports := s.reports ++ [.done] }

/-- R171: ConfigurationError comes from `construct` alone, before any register is written; the block stays
unconstructed, and `construct` may be called again. -/
def Obligations.ConfigurationErrorWritesNothing : Prop :=
  ∀ (i : Instr) (s t : State) (f : PinFault), exec i s = .next t →
    t.reports = s.reports ++ [.error (.configuration f)] →
    i.isConstruct = true ∧ t.life = .unconstructed ∧
    t = { s with draws := t.draws, reports := t.reports } ∧
    ∀ q, PinsAccepted q → ∃ u, exec (.construct q) t = .next u ∧ u.life = .constructed

/-- R32 (decision D6): `construct` has no meaning in a constructed block, and nothing else has one in an unconstructed
block: the machine refuses. -/
def Obligations.LifecycleRefusals : Prop :=
  (∀ (p : PinOperands) (s : State), s.life = .constructed →
    exec (.construct p) s = .refused .alreadyConstructed) ∧
  (∀ (i : Instr) (s : State), s.life = .unconstructed → i.isConstruct = false →
    exec i s = .refused .notConstructed)

/-! ### DisplayState -/

/-- R110: `display(on)` replaces bit 2 of `DC` alone, then sends `0x08 | DC'` as a command in one transaction; the flag
stays changed when the transaction fails. -/
def Obligations.DisplaySetsItsFlagAndSends : Prop :=
  ∀ (on : Bool) (s : State), s.life = .constructed →
    ∃ d : BitVec 3, d.getLsbD 2 = on ∧ d.getLsbD 1 = s.dc.getLsbD 1 ∧ d.getLsbD 0 = s.dc.getLsbD 0 ∧
      exec (.display on) s = .next
        { ({ s with dc := d } : State).transact (frame s.mask s.lit false (0x08#8 ||| d.setWidth 8)) with
          seq := none
          reports := s.reports ++ [if s.nextAnswer = .ok then .done else .error (.transport 0)] }

/-- R111: `cursor(on)` replaces bit 1 of `DC` alone, then sends `0x08 | DC'`. -/
def Obligations.CursorSetsItsFlagAndSends : Prop :=
  ∀ (on : Bool) (s : State), s.life = .constructed →
    ∃ d : BitVec 3, d.getLsbD 2 = s.dc.getLsbD 2 ∧ d.getLsbD 1 = on ∧ d.getLsbD 0 = s.dc.getLsbD 0 ∧
      exec (.cursor on) s = .next
        { ({ s with dc := d } : State).transact (frame s.mask s.lit false (0x08#8 ||| d.setWidth 8)) with
          seq := none
          reports := s.reports ++ [if s.nextAnswer = .ok then .done else .error (.transport 0)] }

/-- R112: `blink(on)` replaces bit 0 of `DC` alone, then sends `0x08 | DC'`; blink on and then off, from blink off, gives
`DC` back and sends two instructions. -/
def Obligations.BlinkSetsItsFlagAndSends : Prop :=
  (∀ (on : Bool) (s : State), s.life = .constructed →
    ∃ d : BitVec 3, d.getLsbD 2 = s.dc.getLsbD 2 ∧ d.getLsbD 1 = s.dc.getLsbD 1 ∧ d.getLsbD 0 = on ∧
      exec (.blink on) s = .next
        { ({ s with dc := d } : State).transact (frame s.mask s.lit false (0x08#8 ||| d.setWidth 8)) with
          seq := none
          reports := s.reports ++ [if s.nextAnswer = .ok then .done else .error (.transport 0)] }) ∧
  (∀ s t u : State, s.dc.getLsbD 0 = false → exec (.blink true) s = .next t → exec (.blink false) t = .next u →
    u.dc = s.dc ∧ ∃ a b, u.trace = s.trace ++
      [.tx s.cfg.i2cAddr (frame s.mask s.lit false (0x08#8 ||| (s.dc ||| 1#3).setWidth 8)) a,
       .tx s.cfg.i2cAddr (frame s.mask s.lit false (0x08#8 ||| s.dc.setWidth 8)) b])

/-- R113: `entry_mode(direction, autoscroll)` sets both bits of `EM`, then sends `0x04 | EM'`. -/
def Obligations.EntryModeSetsBothFlagsAndSends : Prop :=
  ∀ (direction : EntryDir) (autoscroll : Bool) (s : State), s.life = .constructed →
    ∃ e : BitVec 2, e.getLsbD 1 = decide (direction = .ltr) ∧ e.getLsbD 0 = autoscroll ∧
      exec (.entryMode direction autoscroll) s = .next
        { ({ s with em := e } : State).transact (frame s.mask s.lit false (0x04#8 ||| e.setWidth 8)) with
          seq := none
          reports := s.reports ++ [if s.nextAnswer = .ok then .done else .error (.transport 0)] }

/-- R114 (a): repeating a flag operation changes no flag and still sends an instruction. -/
def Obligations.RepeatedToggleStillSends : Prop :=
  ∀ (i : Instr) (s t u : State),
    (∃ on, i = .display on ∨ i = .cursor on ∨ i = .blink on) ∨ (∃ d a, i = .entryMode d a) →
    exec i s = .next t → exec i t = .next u →
    u.dc = t.dc ∧ u.em = t.em ∧ ∃ bytes a b, t.trace = s.trace ++ [.tx s.cfg.i2cAddr bytes a] ∧
      u.trace = t.trace ++ [.tx s.cfg.i2cAddr bytes b]

/-- R75: the one-flag pseudo-operations set their flag and keep the other. -/
def Obligations.PseudoOperationsKeepTheOtherFlag : Prop :=
  ∀ s : State, s.life = .constructed →
    (∃ t, exec s.leftToRight s = .next t ∧ t.em = s.em ||| 0b10#2) ∧
    (∃ t, exec s.rightToLeft s = .next t ∧ t.em = s.em &&& 0b01#2) ∧
    (∃ t, exec s.autoscrollOn s = .next t ∧ t.em = s.em ||| 0b01#2) ∧
    (∃ t, exec s.autoscrollOff s = .next t ∧ t.em = s.em &&& 0b10#2) ∧
    (∃ t, exec Instr.displayOn s = .next t ∧ t.dc = s.dc ||| 0b100#3)

/-! ### CommandEncoder and TransactionBatcher -/

/-- R121 (no state followed and no delay: decision D25): `send_raw_command(byte)` sends any byte unchanged, as a command
in one transaction. -/
def Obligations.SendRawCommandSendsTheByte : Prop :=
  ∀ (byte : Byte) (s : State), s.life = .constructed →
    exec (.sendRawCommand byte) s = .next
      { s.transact (frame s.mask s.lit false byte) with
        seq := none
        reports := s.reports ++ [if s.nextAnswer = .ok then .done else .error (.transport 0)] }

/-- R122: `write_byte(byte)` sends the byte as data in one transaction and returns 1; on failure TransportError 0. -/
def Obligations.WriteByteSendsDataAndReturnsOne : Prop :=
  ∀ (byte : Byte) (s : State), s.life = .constructed →
    exec (.writeByte byte) s = .next
      { s.transact (frame s.mask s.lit true byte) with
        seq := none
        reports := s.reports ++ [if s.nextAnswer = .ok then .count 1 else .error (.transport 0)] }

/-- R122 (decision D30): `write_byte(b)` is `write_bytes([b])` for every frame bound. -/
def Obligations.WriteByteIsOneElementWriteBytes : Prop :=
  ∀ (byte : Byte) (s : State), s.cnt = 0 → exec (.writeByte byte) s = exec (.writeBytes [byte]) s

/-- R132 (a) to (d): the transactions of `batch` concatenate to the frames in order, `4 * len` bytes in all; each has a
positive multiple of 4 bytes, at most `4 * K`, which is within the frame bound, and all but the last exactly that. -/
def Obligations.BatchFillsTransactions : Prop :=
  ∀ (s : State) (bs : List Byte),
    (batch s bs).2.flatten = bs.flatMap (frame s.mask s.lit true) ∧
    (batch s bs).2.flatten.length = 4 * bs.length ∧
    (∀ x ∈ (batch s bs).2, 0 < x.length ∧ 4 ∣ x.length ∧ x.length ≤ 4 * perTransaction s.cfg) ∧
    4 * perTransaction s.cfg ≤ frameBound s.cfg ∧
    (∀ x ∈ (batch s bs).2.dropLast, x.length = 4 * perTransaction s.cfg)

/-- R132 (e), (f), R173: `batch` makes `ceil(len / K)` transactions, more than one exactly when `len > K`, and
transaction `j` begins with the frame of element `j * K`, which is the offset a failure of it reports. -/
def Obligations.BatchCutsEveryKInstructions : Prop :=
  ∀ (s : State) (bs : List Byte),
    (batch s bs).2.length = (bs.length + perTransaction s.cfg - 1) / perTransaction s.cfg ∧
    (1 < (batch s bs).2.length ↔ perTransaction s.cfg < bs.length) ∧
    ∀ (j : Nat) (x : List Byte), (batch s bs).2[j]? = some x →
      ∃ b, bs[j * perTransaction s.cfg]? = some b ∧ x.take 4 = frame s.mask s.lit true b ∧
        dataTransportError s.cfg j = .transport (j * perTransaction s.cfg)

/-- R130: when its transactions are answered `ok`, `write_bytes(buffer)` sends them all, the frames of the whole buffer
reach the pins in order, and the count is the buffer's length. -/
def Obligations.WriteBytesSendsTheBuffer : Prop :=
  ∀ (buffer : List Byte) (s : State) (rest : List Reply), s.life = .constructed →
    s.replies = List.replicate (batch s buffer).2.length .ok ++ rest →
    exec (.writeBytes buffer) s = .next
      { s with
        cnt := 0, seq := none, replies := rest
        trace := s.trace ++ (batch s buffer).2.map (.tx s.cfg.i2cAddr · .ok)
        pins := s.pins ++ buffer.flatMap (frame s.mask s.lit true)
        reports := s.reports ++ [.count buffer.length] }

/-- R130, R173 (offset in operand bytes: decision D21): when transaction `j` fails, the earlier ones stay delivered, the
later ones are not attempted, no count is returned and the error's offset is `j * K`. -/
def Obligations.WriteBytesStopsAtAFailure : Prop :=
  ∀ (buffer : List Byte) (s : State) (j n : Nat) (x : List Byte) (rest : List Reply), s.life = .constructed →
    (batch s buffer).2[j]? = some x → s.replies = List.replicate j .ok ++ .fail n :: rest →
    exec (.writeBytes buffer) s = .next
      { s with
        cnt := 0, seq := none, replies := rest
        trace := s.trace ++ ((batch s buffer).2.take j).map (.tx s.cfg.i2cAddr · .ok) ++ [.tx s.cfg.i2cAddr x .fail]
        pins := s.pins ++ ((batch s buffer).2.take j).flatten ++ x.take n
        reports := s.reports ++ [.error (.transport (j * perTransaction s.cfg))] }

/-- R130 (decision D19): an empty buffer opens no transaction, and the result is 0. -/
def Obligations.WriteBytesOfNothingEmitsNothing : Prop :=
  ∀ s : State, s.life = .constructed →
    exec (.writeBytes []) s = .next { s with cnt := 0, seq := none, reports := s.reports ++ [.count 0] }

/-- R130 with R189: from a state of the invariant, a `write_bytes` whose transactions succeed puts on the pins bytes from
which falling edges of `en` read exactly the buffer's nibbles, high first, all as data. -/
def Obligations.WrittenTextIsReadBack : Prop :=
  ∀ (buffer : List Byte) (s : State), s.Inv → s.life = .constructed →
    (∀ r ∈ s.replies, r = .ok) → buffer.length ≤ s.replies.length →
    ∃ t emitted, exec (.writeBytes buffer) s = .next t ∧ t.reports = s.reports ++ [.count buffer.length] ∧
      t.pins = s.pins ++ emitted ∧ emitted.length = 4 * buffer.length ∧
      latchedNibbles s.mask s.latch emitted =
        buffer.flatMap fun v => [(true, v.extractLsb' 4 4), (true, v.extractLsb' 0 4)]

/-! ### InitSequence -/

/-- R141 (entry writes, raw nibbles and the last delay: decisions D10, D11, D33): an `initialize` whose eight transactions
are answered `ok` latches the geometry, leaves `EM` = 0b10 and `DC` = 0b100, keeps `BL` and the pin map, and performs the
thirteen items of the handshake in order. -/
def Obligations.InitializeRunsTheHandshake : Prop :=
  ∀ (columns rows : Byte) (s : State) (rest : List Reply), s.life = .constructed →
    s.replies = List.replicate 8 .ok ++ rest →
    exec (.initDisplay columns rows) s = .next
      { s with
        em := 0b10#2, dc := 0b100#3, cols := columns, rows := rows, seq := none, replies := rest
        trace := s.trace ++ initTrace s rows
        pins := s.pins ++ pinStream (initTrace s rows)
        reports := s.reports ++ [.done] }

/-- R142 (class and number for all eight transactions: decision D29): when transaction `k` of `initialize` fails, the
error is InitializationFailure `k`, nothing after it is performed, and the registers keep the writes performed so far. -/
def Obligations.InitializeStopsAtAFailure : Prop :=
  ∀ (columns rows : Byte) (s : State) (k n : Nat) (rest : List Reply), s.life = .constructed → k < 8 →
    s.replies = List.replicate k .ok ++ .fail n :: rest →
    ∃ bytes, (initTrace s rows)[initIndex k]? = some (.tx s.cfg.i2cAddr bytes .ok) ∧
      exec (.initDisplay columns rows) s = .next
        { s with
          em := 0b10#2, dc := if k ≤ 4 then 0b000#3 else 0b100#3, cols := columns, rows := rows
          seq := none, replies := rest
          trace := s.trace ++ (initTrace s rows).take (initIndex k) ++ [.tx s.cfg.i2cAddr bytes .fail]
          pins := s.pins ++ pinStream ((initTrace s rows).take (initIndex k)) ++ bytes.take n
          reports := s.reports ++ [.error (.initFailure k)] }

/-! ### DisplayController -/

/-- R150 (no register written: decision D32): `clear` sends 0x01 and then waits `T_SETTLE`; a failed transaction is
followed by no delay. -/
def Obligations.ClearSendsAndSettles : Prop :=
  ∀ s : State, s.life = .constructed →
    exec .clear s = .next
      (match s.nextAnswer with
      | .ok => { s.transact (frame s.mask s.lit false 0x01) with
          seq := none
          trace := (s.transact (frame s.mask s.lit false 0x01)).trace ++ [.delay .settle s.cfg.tSettle]
          reports := s.reports ++ [.done] }
      | .fail => { s.transact (frame s.mask s.lit false 0x01) with
          seq := none, reports := s.reports ++ [.error (.transport 0)] })

/-- R151: `home` sends 0x02 and then waits `T_SETTLE`; a failed transaction is followed by no delay. -/
def Obligations.HomeSendsAndSettles : Prop :=
  ∀ s : State, s.life = .constructed →
    exec .home s = .next
      (match s.nextAnswer with
      | .ok => { s.transact (frame s.mask s.lit false 0x02) with
          seq := none
          trace := (s.transact (frame s.mask s.lit false 0x02)).trace ++ [.delay .settle s.cfg.tSettle]
          reports := s.reports ++ [.done] }
      | .fail => { s.transact (frame s.mask s.lit false 0x02) with
          seq := none, reports := s.reports ++ [.error (.transport 0)] })

/-- R152 (the contract is decision D14): a row above 3 or outside the geometry is InvalidArgument(row); otherwise a column
outside the geometry, or an address above 0x7F, is InvalidArgument(col); nothing else happens. -/
def Obligations.SetCursorRejectsOutsideTheGeometry : Prop :=
  ∀ (col row : Byte) (s : State), s.life = .constructed →
    (3 < row.toNat ∨ s.rows.toNat ≤ row.toNat →
      exec (.setCursor col row) s =
        .next { s with reports := s.reports ++ [.error (.invalidArgument .row)] }) ∧
    (row.toNat ≤ 3 → row.toNat < s.rows.toNat →
      s.cols.toNat ≤ col.toNat ∨ 0x7F < [0x00, 0x40, 0x14, 0x54].getD row.toNat 0 + col.toNat →
      exec (.setCursor col row) s =
        .next { s with reports := s.reports ++ [.error (.invalidArgument .col)] })

/-- R152 (the contract is decision D14): inside the geometry `set_cursor` sends `0x80 | (ROW_OFFSET[row] + col)`. -/
def Obligations.SetCursorSendsTheAddress : Prop :=
  ∀ (col row : Byte) (s : State) (a : Nat), s.life = .constructed →
    row.toNat ≤ 3 → row.toNat < s.rows.toNat → col.toNat < s.cols.toNat →
    a = [0x00, 0x40, 0x14, 0x54].getD row.toNat 0 + col.toNat → a ≤ 0x7F →
    exec (.setCursor col row) s = .next
      { s.transact (frame s.mask s.lit false (BitVec.ofNat 8 (0x80 + a))) with
        seq := none
        reports := s.reports ++ [if s.nextAnswer = .ok then .done else .error (.transport 0)] }

/-- R174: InvalidArgument comes from `set_cursor` alone, before any step of a plan exists: no register, no byte, no
delay. -/
def Obligations.InvalidArgumentChangesNothing : Prop :=
  ∀ (i : Instr) (s t : State) (which : ArgName), exec i s = .next t →
    t.reports = s.reports ++ [.error (.invalidArgument which)] →
    (∃ col row, i = .setCursor col row) ∧ t = { s with reports := t.reports }

/-- R154 (rows through the batcher: decision D15): when its transactions are answered `ok`, `create_glyph` sends the
address command of the slot's low three bits, then the eight rows batched, 36 bytes in all. -/
def Obligations.CreateGlyphProgramsTheSlot : Prop :=
  ∀ (slot : Byte) (bitmap : List Byte) (s : State) (rest : List Reply), s.life = .constructed →
    WellFormed (.createGlyph slot bitmap) →
    s.replies = List.replicate ((batch s bitmap).2.length + 1) .ok ++ rest →
    ∃ c : Byte, c.toNat = 0x40 + 8 * (slot.toNat % 8) ∧
      (frame s.mask s.lit false c ++ bitmap.flatMap (frame s.mask s.lit true)).length = 36 ∧
      exec (.createGlyph slot bitmap) s = .next
        { s with
          cnt := 0, seq := none, replies := rest
          trace := s.trace ++ .tx s.cfg.i2cAddr (frame s.mask s.lit false c) .ok ::
            (batch s bitmap).2.map (.tx s.cfg.i2cAddr · .ok)
          pins := s.pins ++ frame s.mask s.lit false c ++ bitmap.flatMap (frame s.mask s.lit true)
          reports := s.reports ++ [.done] }

/-- R154, R173 (offsets: decision D21): when the address command or a data transaction fails, `create_glyph` ends there;
the offset is 0 for the command, else the first row of the failing transaction. -/
def Obligations.CreateGlyphStopsAtAFailure : Prop :=
  ∀ (slot : Byte) (bitmap : List Byte) (s : State) (j n : Nat) (x : List Byte) (rest : List Reply),
    s.life = .constructed →
    (frame s.mask s.lit false (0x40#8 ||| ((slot &&& 0x07#8) <<< 3)) :: (batch s bitmap).2)[j]? = some x →
    s.replies = List.replicate j .ok ++ .fail n :: rest →
    let txs := frame s.mask s.lit false (0x40#8 ||| ((slot &&& 0x07#8) <<< 3)) :: (batch s bitmap).2
    exec (.createGlyph slot bitmap) s = .next
      { s with
        cnt := 0, seq := none, replies := rest
        trace := s.trace ++ (txs.take j).map (.tx s.cfg.i2cAddr · .ok) ++ [.tx s.cfg.i2cAddr x .fail]
        pins := s.pins ++ (txs.take j).flatten ++ x.take n
        reports := s.reports ++ [.error (.transport (if j = 0 then 0 else (j - 1) * perTransaction s.cfg))] }

/-- R156 (the byte is an OPEN parameter and no register is written: decision D17): `scroll` sends
`SCROLL_CMD[direction]`. -/
def Obligations.ScrollSendsItsParameter : Prop :=
  ∀ (direction : ScrollDir) (s : State), s.life = .constructed →
    exec (.scroll direction) s = .next
      { s.transact (frame s.mask s.lit false
          (match direction with
          | .left => s.cfg.scrollLeft
          | .right => s.cfg.scrollRight)) with
        seq := none
        reports := s.reports ++ [if s.nextAnswer = .ok then .done else .error (.transport 0)] }

/-- R157 (the byte: decision D16): `set_backlight(level)` writes the level, then sends one byte: register select high and
the backlight bit of the new level. -/
def Obligations.SetBacklightSendsTheRelatchByte : Prop :=
  ∀ (level : Byte) (s : State), s.life = .constructed →
    exec (.setBacklight level) s = .next
      { ({ s with bl := level } : State).transact [(if 0 < level.toNat then s.mask.bl else 0) ||| s.mask.rs] with
        seq := none
        reports := s.reports ++ [if s.nextAnswer = .ok then .done else .error (.transport 0)] }

/-- R157, R89, R36 (decision D16): after a successful `set_backlight` on a valid pin map the backlight pin shows the new
level, when the signal is present; and a display whose enable line was low reads nothing from the byte. -/
def Obligations.BacklightPinFollowsAtOnce : Prop :=
  ∀ (level : Byte) (s : State), s.life = .constructed → PinMapValid s.pos s.mask → s.nextAnswer = .ok →
    ∃ t emitted, exec (.setBacklight level) s = .next t ∧ t.pins = s.pins ++ emitted ∧
      (t.backlightPin = true ↔ s.pos.bl ≠ none ∧ 0 < level.toNat) ∧
      (s.latch &&& s.mask.en = 0 → latchedNibbles s.mask s.latch emitted = [])

/-! ### The whole machine -/

/-- The invariant holds at reset (log 4). -/
def Obligations.ResetMeetsTheInvariant : Prop := State.reset.Inv

/-- R23, R32, R33, R34, R55, R58, R15: whatever operation a step takes, the invariant holds after it: the pin map stays
valid, `CNT` and `SEQ` are idle, every transaction ever made is legal, and without a failure the pins saw exactly the
trace's bytes. -/
def Obligations.StepKeepsTheInvariant : Prop :=
  ∀ s t : State, s.Inv → step s = .next t → t.Inv

/-- R21, R24, R26 to R29, R33, R34, R37, R158: which operations may write which of the ten registers; nothing but
`construct` writes the pin map and `LIFE`, nothing leaves `SEQ` on a plan step, and nothing writes the configuration or
the host's pending requests. That `initialize` keeps `BL` is decision D10 (log 24). -/
def Obligations.RegistersChangeOnlyByTheirOperations : Prop :=
  ∀ (i : Instr) (s t : State), exec i s = .next t →
    (i.isConstruct = false → t.life = s.life ∧ t.pos = s.pos ∧ t.mask = s.mask) ∧
    (writesEm i = false → t.em = s.em) ∧ (writesDc i = false → t.dc = s.dc) ∧ (writesBl i = false → t.bl = s.bl) ∧
    (writesGeometry i = false → t.cols = s.cols ∧ t.rows = s.rows) ∧
    (writesCnt i = false → t.cnt = s.cnt) ∧ (t.seq = s.seq ∨ t.seq = none) ∧
    t.cfg = s.cfg ∧ t.requests = s.requests ∧ (i.isConstruct = true → t.trace = s.trace ∧ t.pins = s.pins)

/-- R175, R72, R172, R173: every operation that ends reports exactly one outcome, one that its row of the table allows.
The bounds on what an error carries rest on the spec's decisions D29 (the number of a failed transaction of `initialize`)
and D21 (offsets in operand bytes) (log 24). -/
def Obligations.EveryOperationReportsAnAllowedOutcome : Prop :=
  ∀ (i : Instr) (s t : State), exec i s = .next t →
    ∃ r, t.reports = s.reports ++ [r] ∧ mayReport i r = true

/-- R178, R59: the past trace and pins are kept; a transaction answered `fail` is the last item performed; it is there
exactly when the outcome is a TransportError or an InitializationFailure. -/
def Obligations.ErrorsArePrecise : Prop :=
  ∀ (i : Instr) (s t : State), exec i s = .next t →
    ∃ items bytes r, t.trace = s.trace ++ items ∧ t.pins = s.pins ++ bytes ∧ t.reports = s.reports ++ [r] ∧
      (∀ item ∈ items.dropLast, item.failed = false) ∧
      ((∃ item, items.getLast? = some item ∧ item.failed = true) ↔
        (∃ k, r = .error (.initFailure k)) ∨ ∃ offset, r = .error (.transport offset))

/-- R90, R131, R158: the transactions an operation makes go to `I2C_ADDR` and have legal lengths within the frame bound,
one byte only from `set_backlight`, two only from `initialize`; only `clear`, `home` and `initialize` contain delays. -/
def Obligations.TransactionLengthsTellTheirOperation : Prop :=
  ∀ (i : Instr) (s t : State), exec i s = .next t →
    ∃ items, t.trace = s.trace ++ items ∧
      ∀ item ∈ items,
        match item with
        | .delay _ _ => mayDelay i = true
        | .tx addr bytes _ =>
          addr = s.cfg.i2cAddr ∧ LegalLength bytes.length ∧ bytes.length ≤ frameBound s.cfg ∧
          (bytes.length = 1 → ∃ level, i = .setBacklight level) ∧
          (bytes.length = 2 → ∃ columns rows, i = .initDisplay columns rows)

/-- R64: when every transaction is answered `ok`, the bytes on the pins, the outcome and the ten registers do not depend
on the frame bound. -/
def Obligations.FrameBoundIsInvisibleToTheDisplay : Prop :=
  ∀ (i : Instr) (s : State) (room room' : Nat), s.life = .constructed → i.isConstruct = false →
    (∀ r ∈ s.replies, r = .ok) → maxTransactions i ≤ s.replies.length →
    ∃ t u, exec i (s.withFrameRoom room) = .next t ∧ exec i (s.withFrameRoom room') = .next u ∧
      t.pins = u.pins ∧ pinStream t.trace = pinStream u.trace ∧ t.reports = u.reports ∧
      t.life = u.life ∧ t.pos = u.pos ∧ t.mask = u.mask ∧ t.em = u.em ∧ t.dc = u.dc ∧ t.bl = u.bl ∧
      t.cols = u.cols ∧ t.rows = u.rows ∧ t.cnt = u.cnt ∧ t.seq = u.seq

/-- R32, R180: a constructed block whose host issues operations of R70 other than `construct` is never refused and never
stops, whatever the transport answers; an error leaves it as ready as before. -/
def Obligations.ConstructedBlockNeverStops : Prop :=
  ∀ (k : Nat) (s : State), s.Ready → ∃ t, Host.Core.run core k s = .next t ∧ t.Ready

/-- R202, R32 (how a program comes to run: log 20): from power-on, a program that begins with a `construct` whose pins
are accepted and goes on with other operations is never refused and never stops. -/
def Obligations.ProgramsRunFromPowerOn : Prop :=
  ∀ (c : Config) (p : PinOperands) (ops : List Instr) (replies : List Reply) (k : Nat), PinsAccepted p →
    (∀ i ∈ ops, WellFormed i ∧ i.isConstruct = false) →
    ∃ t, Host.Core.run core k
      { State.resetWith c with requests := (Instr.construct p :: ops).map encode, replies := replies } = .next t

/-! ### The host port -/

/-- R60 (the port image is the model's: log 1, log 6): a step takes the host's next request; when it decodes to an
operation, the step is that operation on the state without the request. -/
def Obligations.StepRunsTheDecodedOperation : Prop :=
  ∀ (s : State) (image : List Byte) (rest : List (List Byte)) (i : Instr), s.requests = image :: rest →
    decode image = .ok i → step s = exec i { s with requests := rest }

/-- R60, R177 (log 6): with no request the block waits and nothing changes. -/
def Obligations.StepWithoutRequestWaits : Prop :=
  ∀ s : State, s.requests = [] → step s = .next s

/-- R86 (decision D24): OPSEL 15 selects nothing; the machine refuses the request, whatever its operands. That OPSEL is
the low four bits of an image's first byte, whatever its upper half, is the model's layout (log 1, log 2). -/
def Obligations.ReservedOpselIsRefused : Prop :=
  ∀ (s : State) (first : Byte) (operands : List Byte) (rest : List (List Byte)), first.toNat % 16 = 15 →
    s.requests = (first :: operands) :: rest → step s = .refused .reservedOperation

/-- R70 (the image is the model's: log 1): decoding the image of a well-formed operation gives it back, with every operand
at every value. -/
def Obligations.DecodeOfEncode : Prop :=
  ∀ i : Instr, WellFormed i → decode (encode i) = .ok i

/-- R70 (the image is the model's: log 1, log 2): an image that decodes is the image of its well-formed operation, but for
the upper half of the OPSEL byte, which is no part of OPSEL. -/
def Obligations.EncodeOfDecode : Prop :=
  ∀ (first : Byte) (operands : List Byte) (i : Instr), decode (first :: operands) = .ok i →
    WellFormed i ∧ encode i = (first &&& 0x0F#8) :: operands

/-- R70's table: the OPSEL codes and operands of the operations of programs P1 and P2 of 95_test_vectors.md, and the
reserved code. The image that holds them is the model's (log 1). -/
def Obligations.TableWordsDecode : Prop :=
  decode [0x00, 0, 0, 0, 2, 1, 3, 4, 5, 6, 7] = .ok Instr.constructDefault ∧
  decode [0x01, 16, 2] = .ok (.initDisplay 16 2) ∧ decode [0x0D, 0x48, 0x69] = .ok (.writeBytes [0x48, 0x69]) ∧
  decode [0x0A, 255] = .ok (.setBacklight 255) ∧ decode [0x01, 20, 4] = .ok (.initDisplay 20 4) ∧
  decode [0x04, 2, 1] = .ok (.setCursor 2 1) ∧ decode [0x07, 1] = .ok (.blink true) ∧
  decode [0x07, 0] = .ok (.blink false) ∧ decode [0x06, 1] = .ok (.cursor true) ∧
  decode [0x09, 0, 1] = .ok (.entryMode .rtl true) ∧ decode [0x04, 0, 4] = .ok (.setCursor 0 4) ∧
  decode [0x04, 20, 0] = .ok (.setCursor 20 0) ∧ decode [0x04, 19, 3] = .ok (.setCursor 19 3) ∧
  decode [0x0F] = .error .reservedOpsel
end

