-- ==== Sys2Proof/Laws/State.lean ====
section
/-! SUPPORT. What each update of the state does to each field: one lemma per field per update, true by unfolding. No
later proof unfolds a record update. -/

namespace Sys2Proof.Machine

variable (s : State)

section setCnt

@[simp] theorem setCnt_life (n : Nat) : (s.setCnt n).life = s.life := rfl
@[simp] theorem setCnt_pos (n : Nat) : (s.setCnt n).pos = s.pos := rfl
@[simp] theorem setCnt_mask (n : Nat) : (s.setCnt n).mask = s.mask := rfl
@[simp] theorem setCnt_em (n : Nat) : (s.setCnt n).em = s.em := rfl
@[simp] theorem setCnt_dc (n : Nat) : (s.setCnt n).dc = s.dc := rfl
@[simp] theorem setCnt_bl (n : Nat) : (s.setCnt n).bl = s.bl := rfl
@[simp] theorem setCnt_cols (n : Nat) : (s.setCnt n).cols = s.cols := rfl
@[simp] theorem setCnt_rows (n : Nat) : (s.setCnt n).rows = s.rows := rfl
@[simp] theorem setCnt_cnt (n : Nat) : (s.setCnt n).cnt = n := rfl
@[simp] theorem setCnt_seq (n : Nat) : (s.setCnt n).seq = s.seq := rfl
@[simp] theorem setCnt_cfg (n : Nat) : (s.setCnt n).cfg = s.cfg := rfl
@[simp] theorem setCnt_requests (n : Nat) : (s.setCnt n).requests = s.requests := rfl
@[simp] theorem setCnt_replies (n : Nat) : (s.setCnt n).replies = s.replies := rfl
@[simp] theorem setCnt_draws (n : Nat) : (s.setCnt n).draws = s.draws := rfl
@[simp] theorem setCnt_trace (n : Nat) : (s.setCnt n).trace = s.trace := rfl
@[simp] theorem setCnt_pins (n : Nat) : (s.setCnt n).pins = s.pins := rfl
@[simp] theorem setCnt_reports (n : Nat) : (s.setCnt n).reports = s.reports := rfl

end setCnt

section setSeq

@[simp] theorem setSeq_life (k : Option Nat) : (s.setSeq k).life = s.life := rfl
@[simp] theorem setSeq_pos (k : Option Nat) : (s.setSeq k).pos = s.pos := rfl
@[simp] theorem setSeq_mask (k : Option Nat) : (s.setSeq k).mask = s.mask := rfl
@[simp] theorem setSeq_em (k : Option Nat) : (s.setSeq k).em = s.em := rfl
@[simp] theorem setSeq_dc (k : Option Nat) : (s.setSeq k).dc = s.dc := rfl
@[simp] theorem setSeq_bl (k : Option Nat) : (s.setSeq k).bl = s.bl := rfl
@[simp] theorem setSeq_cols (k : Option Nat) : (s.setSeq k).cols = s.cols := rfl
@[simp] theorem setSeq_rows (k : Option Nat) : (s.setSeq k).rows = s.rows := rfl
@[simp] theorem setSeq_cnt (k : Option Nat) : (s.setSeq k).cnt = s.cnt := rfl
@[simp] theorem setSeq_seq (k : Option Nat) : (s.setSeq k).seq = k := rfl
@[simp] theorem setSeq_cfg (k : Option Nat) : (s.setSeq k).cfg = s.cfg := rfl
@[simp] theorem setSeq_requests (k : Option Nat) : (s.setSeq k).requests = s.requests := rfl
@[simp] theorem setSeq_replies (k : Option Nat) : (s.setSeq k).replies = s.replies := rfl
@[simp] theorem setSeq_draws (k : Option Nat) : (s.setSeq k).draws = s.draws := rfl
@[simp] theorem setSeq_trace (k : Option Nat) : (s.setSeq k).trace = s.trace := rfl
@[simp] theorem setSeq_pins (k : Option Nat) : (s.setSeq k).pins = s.pins := rfl
@[simp] theorem setSeq_reports (k : Option Nat) : (s.setSeq k).reports = s.reports := rfl

end setSeq

section advance

@[simp] theorem advance_life : (s.advance).life = s.life := rfl
@[simp] theorem advance_pos : (s.advance).pos = s.pos := rfl
@[simp] theorem advance_mask : (s.advance).mask = s.mask := rfl
@[simp] theorem advance_em : (s.advance).em = s.em := rfl
@[simp] theorem advance_dc : (s.advance).dc = s.dc := rfl
@[simp] theorem advance_bl : (s.advance).bl = s.bl := rfl
@[simp] theorem advance_cols : (s.advance).cols = s.cols := rfl
@[simp] theorem advance_rows : (s.advance).rows = s.rows := rfl
@[simp] theorem advance_cnt : (s.advance).cnt = s.cnt := rfl
@[simp] theorem advance_seq : (s.advance).seq = s.seq.map (· + 1) := rfl
@[simp] theorem advance_cfg : (s.advance).cfg = s.cfg := rfl
@[simp] theorem advance_requests : (s.advance).requests = s.requests := rfl
@[simp] theorem advance_replies : (s.advance).replies = s.replies := rfl
@[simp] theorem advance_draws : (s.advance).draws = s.draws := rfl
@[simp] theorem advance_trace : (s.advance).trace = s.trace := rfl
@[simp] theorem advance_pins : (s.advance).pins = s.pins := rfl
@[simp] theorem advance_reports : (s.advance).reports = s.reports := rfl

end advance

section report

@[simp] theorem report_life (r : Report) : (s.report r).life = s.life := rfl
@[simp] theorem report_pos (r : Report) : (s.report r).pos = s.pos := rfl
@[simp] theorem report_mask (r : Report) : (s.report r).mask = s.mask := rfl
@[simp] theorem report_em (r : Report) : (s.report r).em = s.em := rfl
@[simp] theorem report_dc (r : Report) : (s.report r).dc = s.dc := rfl
@[simp] theorem report_bl (r : Report) : (s.report r).bl = s.bl := rfl
@[simp] theorem report_cols (r : Report) : (s.report r).cols = s.cols := rfl
@[simp] theorem report_rows (r : Report) : (s.report r).rows = s.rows := rfl
@[simp] theorem report_cnt (r : Report) : (s.report r).cnt = s.cnt := rfl
@[simp] theorem report_seq (r : Report) : (s.report r).seq = s.seq := rfl
@[simp] theorem report_cfg (r : Report) : (s.report r).cfg = s.cfg := rfl
@[simp] theorem report_requests (r : Report) : (s.report r).requests = s.requests := rfl
@[simp] theorem report_replies (r : Report) : (s.report r).replies = s.replies := rfl
@[simp] theorem report_draws (r : Report) : (s.report r).draws = s.draws := rfl
@[simp] theorem report_trace (r : Report) : (s.report r).trace = s.trace := rfl
@[simp] theorem report_pins (r : Report) : (s.report r).pins = s.pins := rfl
@[simp] theorem report_reports (r : Report) : (s.report r).reports = s.reports ++ [r] := rfl

end report

section record

@[simp] theorem record_life (item : TraceItem) : (s.record item).life = s.life := rfl
@[simp] theorem record_pos (item : TraceItem) : (s.record item).pos = s.pos := rfl
@[simp] theorem record_mask (item : TraceItem) : (s.record item).mask = s.mask := rfl
@[simp] theorem record_em (item : TraceItem) : (s.record item).em = s.em := rfl
@[simp] theorem record_dc (item : TraceItem) : (s.record item).dc = s.dc := rfl
@[simp] theorem record_bl (item : TraceItem) : (s.record item).bl = s.bl := rfl
@[simp] theorem record_cols (item : TraceItem) : (s.record item).cols = s.cols := rfl
@[simp] theorem record_rows (item : TraceItem) : (s.record item).rows = s.rows := rfl
@[simp] theorem record_cnt (item : TraceItem) : (s.record item).cnt = s.cnt := rfl
@[simp] theorem record_seq (item : TraceItem) : (s.record item).seq = s.seq := rfl
@[simp] theorem record_cfg (item : TraceItem) : (s.record item).cfg = s.cfg := rfl
@[simp] theorem record_requests (item : TraceItem) : (s.record item).requests = s.requests := rfl
@[simp] theorem record_replies (item : TraceItem) : (s.record item).replies = s.replies := rfl
@[simp] theorem record_draws (item : TraceItem) : (s.record item).draws = s.draws := rfl
@[simp] theorem record_trace (item : TraceItem) : (s.record item).trace = s.trace ++ [item] := rfl
@[simp] theorem record_pins (item : TraceItem) : (s.record item).pins = s.pins := rfl
@[simp] theorem record_reports (item : TraceItem) : (s.record item).reports = s.reports := rfl

end record

section drive

@[simp] theorem drive_life (bs : List Byte) : (s.drive bs).life = s.life := rfl
@[simp] theorem drive_pos (bs : List Byte) : (s.drive bs).pos = s.pos := rfl
@[simp] theorem drive_mask (bs : List Byte) : (s.drive bs).mask = s.mask := rfl
@[simp] theorem drive_em (bs : List Byte) : (s.drive bs).em = s.em := rfl
@[simp] theorem drive_dc (bs : List Byte) : (s.drive bs).dc = s.dc := rfl
@[simp] theorem drive_bl (bs : List Byte) : (s.drive bs).bl = s.bl := rfl
@[simp] theorem drive_cols (bs : List Byte) : (s.drive bs).cols = s.cols := rfl
@[simp] theorem drive_rows (bs : List Byte) : (s.drive bs).rows = s.rows := rfl
@[simp] theorem drive_cnt (bs : List Byte) : (s.drive bs).cnt = s.cnt := rfl
@[simp] theorem drive_seq (bs : List Byte) : (s.drive bs).seq = s.seq := rfl
@[simp] theorem drive_cfg (bs : List Byte) : (s.drive bs).cfg = s.cfg := rfl
@[simp] theorem drive_requests (bs : List Byte) : (s.drive bs).requests = s.requests := rfl
@[simp] theorem drive_replies (bs : List Byte) : (s.drive bs).replies = s.replies := rfl
@[simp] theorem drive_draws (bs : List Byte) : (s.drive bs).draws = s.draws := rfl
@[simp] theorem drive_trace (bs : List Byte) : (s.drive bs).trace = s.trace := rfl
@[simp] theorem drive_pins (bs : List Byte) : (s.drive bs).pins = s.pins ++ bs := rfl
@[simp] theorem drive_reports (bs : List Byte) : (s.drive bs).reports = s.reports := rfl

end drive

section draw

@[simp] theorem draw_life : (s.draw).life = s.life := rfl
@[simp] theorem draw_pos : (s.draw).pos = s.pos := rfl
@[simp] theorem draw_mask : (s.draw).mask = s.mask := rfl
@[simp] theorem draw_em : (s.draw).em = s.em := rfl
@[simp] theorem draw_dc : (s.draw).dc = s.dc := rfl
@[simp] theorem draw_bl : (s.draw).bl = s.bl := rfl
@[simp] theorem draw_cols : (s.draw).cols = s.cols := rfl
@[simp] theorem draw_rows : (s.draw).rows = s.rows := rfl
@[simp] theorem draw_cnt : (s.draw).cnt = s.cnt := rfl
@[simp] theorem draw_seq : (s.draw).seq = s.seq := rfl
@[simp] theorem draw_cfg : (s.draw).cfg = s.cfg := rfl
@[simp] theorem draw_requests : (s.draw).requests = s.requests := rfl
@[simp] theorem draw_replies : (s.draw).replies = s.replies := rfl
@[simp] theorem draw_draws : (s.draw).draws = s.draws + 1 := rfl
@[simp] theorem draw_trace : (s.draw).trace = s.trace := rfl
@[simp] theorem draw_pins : (s.draw).pins = s.pins := rfl
@[simp] theorem draw_reports : (s.draw).reports = s.reports := rfl

end draw

section takeRequest

@[simp] theorem takeRequest_life : (s.takeRequest).life = s.life := rfl
@[simp] theorem takeRequest_pos : (s.takeRequest).pos = s.pos := rfl
@[simp] theorem takeRequest_mask : (s.takeRequest).mask = s.mask := rfl
@[simp] theorem takeRequest_em : (s.takeRequest).em = s.em := rfl
@[simp] theorem takeRequest_dc : (s.takeRequest).dc = s.dc := rfl
@[simp] theorem takeRequest_bl : (s.takeRequest).bl = s.bl := rfl
@[simp] theorem takeRequest_cols : (s.takeRequest).cols = s.cols := rfl
@[simp] theorem takeRequest_rows : (s.takeRequest).rows = s.rows := rfl
@[simp] theorem takeRequest_cnt : (s.takeRequest).cnt = s.cnt := rfl
@[simp] theorem takeRequest_seq : (s.takeRequest).seq = s.seq := rfl
@[simp] theorem takeRequest_cfg : (s.takeRequest).cfg = s.cfg := rfl
@[simp] theorem takeRequest_requests : (s.takeRequest).requests = s.requests.tail := rfl
@[simp] theorem takeRequest_replies : (s.takeRequest).replies = s.replies := rfl
@[simp] theorem takeRequest_draws : (s.takeRequest).draws = s.draws := rfl
@[simp] theorem takeRequest_trace : (s.takeRequest).trace = s.trace := rfl
@[simp] theorem takeRequest_pins : (s.takeRequest).pins = s.pins := rfl
@[simp] theorem takeRequest_reports : (s.takeRequest).reports = s.reports := rfl

end takeRequest

section placeRequest

@[simp] theorem placeRequest_life (image : List Byte) : (s.placeRequest image).life = s.life := rfl
@[simp] theorem placeRequest_pos (image : List Byte) : (s.placeRequest image).pos = s.pos := rfl
@[simp] theorem placeRequest_mask (image : List Byte) : (s.placeRequest image).mask = s.mask := rfl
@[simp] theorem placeRequest_em (image : List Byte) : (s.placeRequest image).em = s.em := rfl
@[simp] theorem placeRequest_dc (image : List Byte) : (s.placeRequest image).dc = s.dc := rfl
@[simp] theorem placeRequest_bl (image : List Byte) : (s.placeRequest image).bl = s.bl := rfl
@[simp] theorem placeRequest_cols (image : List Byte) : (s.placeRequest image).cols = s.cols := rfl
@[simp] theorem placeRequest_rows (image : List Byte) : (s.placeRequest image).rows = s.rows := rfl
@[simp] theorem placeRequest_cnt (image : List Byte) : (s.placeRequest image).cnt = s.cnt := rfl
@[simp] theorem placeRequest_seq (image : List Byte) : (s.placeRequest image).seq = s.seq := rfl
@[simp] theorem placeRequest_cfg (image : List Byte) : (s.placeRequest image).cfg = s.cfg := rfl
@[simp] theorem placeRequest_requests (image : List Byte) : (s.placeRequest image).requests = image :: s.requests := rfl
@[simp] theorem placeRequest_replies (image : List Byte) : (s.placeRequest image).replies = s.replies := rfl
@[simp] theorem placeRequest_draws (image : List Byte) : (s.placeRequest image).draws = s.draws := rfl
@[simp] theorem placeRequest_trace (image : List Byte) : (s.placeRequest image).trace = s.trace := rfl
@[simp] theorem placeRequest_pins (image : List Byte) : (s.placeRequest image).pins = s.pins := rfl
@[simp] theorem placeRequest_reports (image : List Byte) : (s.placeRequest image).reports = s.reports := rfl

end placeRequest

section wait

@[simp] theorem wait_life (d : DelayParam) : (s.wait d).life = s.life := rfl
@[simp] theorem wait_pos (d : DelayParam) : (s.wait d).pos = s.pos := rfl
@[simp] theorem wait_mask (d : DelayParam) : (s.wait d).mask = s.mask := rfl
@[simp] theorem wait_em (d : DelayParam) : (s.wait d).em = s.em := rfl
@[simp] theorem wait_dc (d : DelayParam) : (s.wait d).dc = s.dc := rfl
@[simp] theorem wait_bl (d : DelayParam) : (s.wait d).bl = s.bl := rfl
@[simp] theorem wait_cols (d : DelayParam) : (s.wait d).cols = s.cols := rfl
@[simp] theorem wait_rows (d : DelayParam) : (s.wait d).rows = s.rows := rfl
@[simp] theorem wait_cnt (d : DelayParam) : (s.wait d).cnt = s.cnt := rfl
@[simp] theorem wait_seq (d : DelayParam) : (s.wait d).seq = s.seq := rfl
@[simp] theorem wait_cfg (d : DelayParam) : (s.wait d).cfg = s.cfg := rfl
@[simp] theorem wait_requests (d : DelayParam) : (s.wait d).requests = s.requests := rfl
@[simp] theorem wait_replies (d : DelayParam) : (s.wait d).replies = s.replies := rfl
@[simp] theorem wait_draws (d : DelayParam) : (s.wait d).draws = s.draws := rfl
@[simp] theorem wait_trace (d : DelayParam) : (s.wait d).trace = s.trace ++ [.delay d (delayMicros s.cfg d)] := rfl
@[simp] theorem wait_pins (d : DelayParam) : (s.wait d).pins = s.pins := rfl
@[simp] theorem wait_reports (d : DelayParam) : (s.wait d).reports = s.reports := rfl

end wait

section write

@[simp] theorem write_life (w : FieldWrite) : (s.write w).life = s.life := by cases w <;> rfl
@[simp] theorem write_pos (w : FieldWrite) : (s.write w).pos = s.pos := by cases w <;> rfl
@[simp] theorem write_mask (w : FieldWrite) : (s.write w).mask = s.mask := by cases w <;> rfl
@[simp] theorem write_cnt (w : FieldWrite) : (s.write w).cnt = s.cnt := by cases w <;> rfl
@[simp] theorem write_seq (w : FieldWrite) : (s.write w).seq = s.seq := by cases w <;> rfl
@[simp] theorem write_cfg (w : FieldWrite) : (s.write w).cfg = s.cfg := by cases w <;> rfl
@[simp] theorem write_requests (w : FieldWrite) : (s.write w).requests = s.requests := by cases w <;> rfl
@[simp] theorem write_replies (w : FieldWrite) : (s.write w).replies = s.replies := by cases w <;> rfl
@[simp] theorem write_draws (w : FieldWrite) : (s.write w).draws = s.draws := by cases w <;> rfl
@[simp] theorem write_trace (w : FieldWrite) : (s.write w).trace = s.trace := by cases w <;> rfl
@[simp] theorem write_pins (w : FieldWrite) : (s.write w).pins = s.pins := by cases w <;> rfl
@[simp] theorem write_reports (w : FieldWrite) : (s.write w).reports = s.reports := by cases w <;> rfl
@[simp] theorem write_em_em (v : BitVec 2) : (s.write (.em v)).em = v := rfl
@[simp] theorem write_em_dc (v : BitVec 2) : (s.write (.em v)).dc = s.dc := rfl
@[simp] theorem write_em_bl (v : BitVec 2) : (s.write (.em v)).bl = s.bl := rfl
@[simp] theorem write_em_cols (v : BitVec 2) : (s.write (.em v)).cols = s.cols := rfl
@[simp] theorem write_em_rows (v : BitVec 2) : (s.write (.em v)).rows = s.rows := rfl
@[simp] theorem write_dc_em (v : BitVec 3) : (s.write (.dc v)).em = s.em := rfl
@[simp] theorem write_dc_dc (v : BitVec 3) : (s.write (.dc v)).dc = v := rfl
@[simp] theorem write_dc_bl (v : BitVec 3) : (s.write (.dc v)).bl = s.bl := rfl
@[simp] theorem write_dc_cols (v : BitVec 3) : (s.write (.dc v)).cols = s.cols := rfl
@[simp] theorem write_dc_rows (v : BitVec 3) : (s.write (.dc v)).rows = s.rows := rfl
@[simp] theorem write_bl_em (v : Byte) : (s.write (.bl v)).em = s.em := rfl
@[simp] theorem write_bl_dc (v : Byte) : (s.write (.bl v)).dc = s.dc := rfl
@[simp] theorem write_bl_bl (v : Byte) : (s.write (.bl v)).bl = v := rfl
@[simp] theorem write_bl_cols (v : Byte) : (s.write (.bl v)).cols = s.cols := rfl
@[simp] theorem write_bl_rows (v : Byte) : (s.write (.bl v)).rows = s.rows := rfl
@[simp] theorem write_cols_em (v : Byte) : (s.write (.cols v)).em = s.em := rfl
@[simp] theorem write_cols_dc (v : Byte) : (s.write (.cols v)).dc = s.dc := rfl
@[simp] theorem write_cols_bl (v : Byte) : (s.write (.cols v)).bl = s.bl := rfl
@[simp] theorem write_cols_cols (v : Byte) : (s.write (.cols v)).cols = v := rfl
@[simp] theorem write_cols_rows (v : Byte) : (s.write (.cols v)).rows = s.rows := rfl
@[simp] theorem write_rows_em (v : Byte) : (s.write (.rows v)).em = s.em := rfl
@[simp] theorem write_rows_dc (v : Byte) : (s.write (.rows v)).dc = s.dc := rfl
@[simp] theorem write_rows_bl (v : Byte) : (s.write (.rows v)).bl = s.bl := rfl
@[simp] theorem write_rows_cols (v : Byte) : (s.write (.rows v)).cols = s.cols := rfl
@[simp] theorem write_rows_rows (v : Byte) : (s.write (.rows v)).rows = v := rfl

end write

section takeReply

@[simp] theorem takeReply_life : s.takeReply.life = s.life := by unfold State.takeReply; split <;> rfl
@[simp] theorem takeReply_pos : s.takeReply.pos = s.pos := by unfold State.takeReply; split <;> rfl
@[simp] theorem takeReply_mask : s.takeReply.mask = s.mask := by unfold State.takeReply; split <;> rfl
@[simp] theorem takeReply_em : s.takeReply.em = s.em := by unfold State.takeReply; split <;> rfl
@[simp] theorem takeReply_dc : s.takeReply.dc = s.dc := by unfold State.takeReply; split <;> rfl
@[simp] theorem takeReply_bl : s.takeReply.bl = s.bl := by unfold State.takeReply; split <;> rfl
@[simp] theorem takeReply_cols : s.takeReply.cols = s.cols := by unfold State.takeReply; split <;> rfl
@[simp] theorem takeReply_rows : s.takeReply.rows = s.rows := by unfold State.takeReply; split <;> rfl
@[simp] theorem takeReply_cnt : s.takeReply.cnt = s.cnt := by unfold State.takeReply; split <;> rfl
@[simp] theorem takeReply_seq : s.takeReply.seq = s.seq := by unfold State.takeReply; split <;> rfl
@[simp] theorem takeReply_cfg : s.takeReply.cfg = s.cfg := by unfold State.takeReply; split <;> rfl
@[simp] theorem takeReply_requests : s.takeReply.requests = s.requests := by unfold State.takeReply; split <;> rfl
@[simp] theorem takeReply_replies : s.takeReply.replies = s.replies.tail := by
  unfold State.takeReply; split <;> rename_i h <;> simp [h]
@[simp] theorem takeReply_draws : s.takeReply.draws = bif s.replies.isEmpty then s.draws + 1 else s.draws := by
  unfold State.takeReply; split <;> rename_i h <;> simp [h]
@[simp] theorem takeReply_trace : s.takeReply.trace = s.trace := by unfold State.takeReply; split <;> rfl
@[simp] theorem takeReply_pins : s.takeReply.pins = s.pins := by unfold State.takeReply; split <;> rfl
@[simp] theorem takeReply_reports : s.takeReply.reports = s.reports := by unfold State.takeReply; split <;> rfl

end takeReply

section transact

@[simp] theorem transact_life (bs : List Byte) : (s.transact bs).life = s.life := by simp [State.transact]
@[simp] theorem transact_pos (bs : List Byte) : (s.transact bs).pos = s.pos := by simp [State.transact]
@[simp] theorem transact_mask (bs : List Byte) : (s.transact bs).mask = s.mask := by simp [State.transact]
@[simp] theorem transact_em (bs : List Byte) : (s.transact bs).em = s.em := by simp [State.transact]
@[simp] theorem transact_dc (bs : List Byte) : (s.transact bs).dc = s.dc := by simp [State.transact]
@[simp] theorem transact_bl (bs : List Byte) : (s.transact bs).bl = s.bl := by simp [State.transact]
@[simp] theorem transact_cols (bs : List Byte) : (s.transact bs).cols = s.cols := by simp [State.transact]
@[simp] theorem transact_rows (bs : List Byte) : (s.transact bs).rows = s.rows := by simp [State.transact]
@[simp] theorem transact_cnt (bs : List Byte) : (s.transact bs).cnt = s.cnt := by simp [State.transact]
@[simp] theorem transact_seq (bs : List Byte) : (s.transact bs).seq = s.seq := by simp [State.transact]
@[simp] theorem transact_cfg (bs : List Byte) : (s.transact bs).cfg = s.cfg := by simp [State.transact]
@[simp] theorem transact_requests (bs : List Byte) : (s.transact bs).requests = s.requests := by simp [State.transact]
@[simp] theorem transact_replies (bs : List Byte) : (s.transact bs).replies = s.replies.tail := by simp [State.transact]
@[simp] theorem transact_draws (bs : List Byte) : (s.transact bs).draws = bif s.replies.isEmpty then s.draws + 1 else s.draws := by simp [State.transact]
@[simp] theorem transact_trace (bs : List Byte) : (s.transact bs).trace = s.trace ++ [.tx s.cfg.i2cAddr bs s.nextAnswer] := by simp [State.transact]
@[simp] theorem transact_pins (bs : List Byte) : (s.transact bs).pins = s.pins ++ replyDelivers bs s.nextReply := by simp [State.transact]
@[simp] theorem transact_reports (bs : List Byte) : (s.transact bs).reports = s.reports := by simp [State.transact]

end transact

end Sys2Proof.Machine
end

