-- ==== Sys2Proof/Laws/Ops.lean ====
section
/-! SUPPORT. What the shared operations can do: the next answer, performing a plan, and the outcomes of an operation.
Proofs about an operation cite these and do not unfold `performFrom`. -/

namespace Sys2Proof.Machine

variable (s : State)

/-! ### The transport's next reply depends on the listed replies and the counter alone -/

theorem nextReply_congr {s t : State} (h : s.replies = t.replies) (h' : s.draws = t.draws) :
    s.nextReply = t.nextReply := by
  simp [State.nextReply, h, h']

theorem nextAnswer_congr {s t : State} (h : s.replies = t.replies) (h' : s.draws = t.draws) :
    s.nextAnswer = t.nextAnswer := by
  simp [State.nextAnswer, nextReply_congr h h']

@[simp] theorem nextReply_setCnt (n : Nat) : (s.setCnt n).nextReply = s.nextReply := rfl
@[simp] theorem nextReply_setSeq (k : Option Nat) : (s.setSeq k).nextReply = s.nextReply := rfl
@[simp] theorem nextReply_advance : s.advance.nextReply = s.nextReply := rfl
@[simp] theorem nextReply_record (item : TraceItem) : (s.record item).nextReply = s.nextReply := rfl
@[simp] theorem nextReply_wait (d : DelayParam) : (s.wait d).nextReply = s.nextReply := rfl
@[simp] theorem nextReply_report (r : Report) : (s.report r).nextReply = s.nextReply := rfl
@[simp] theorem nextReply_write (w : FieldWrite) : (s.write w).nextReply = s.nextReply := by cases w <;> rfl

@[simp] theorem nextAnswer_setCnt (n : Nat) : (s.setCnt n).nextAnswer = s.nextAnswer := rfl
@[simp] theorem nextAnswer_setSeq (k : Option Nat) : (s.setSeq k).nextAnswer = s.nextAnswer := rfl
@[simp] theorem nextAnswer_advance : s.advance.nextAnswer = s.nextAnswer := rfl
@[simp] theorem nextAnswer_record (item : TraceItem) : (s.record item).nextAnswer = s.nextAnswer := rfl
@[simp] theorem nextAnswer_wait (d : DelayParam) : (s.wait d).nextAnswer = s.nextAnswer := rfl
@[simp] theorem nextAnswer_report (r : Report) : (s.report r).nextAnswer = s.nextAnswer := rfl
@[simp] theorem nextAnswer_write (w : FieldWrite) : (s.write w).nextAnswer = s.nextAnswer := by cases w <;> rfl

/-- The transport's listed reply is the one used. -/
theorem nextReply_cons {r : Reply} {rest : List Reply} (h : s.replies = r :: rest) : s.nextReply = r := by
  simp [State.nextReply, h]

theorem nextAnswer_cons {r : Reply} {rest : List Reply} (h : s.replies = r :: rest) :
    s.nextAnswer = replyAnswer r := by
  simp [State.nextAnswer, nextReply_cons s h]

/-- A reply whose answer is `ok` delivers everything. -/
theorem replyDelivers_of_ok {r : Reply} (bytes : List Byte) (h : replyAnswer r = .ok) :
    replyDelivers bytes r = bytes := by
  cases r <;> simp_all [replyAnswer, replyDelivers]

/-- Whatever the reply, what is delivered is a leading part of the transaction. -/
theorem replyDelivers_sublist (bytes : List Byte) (r : Reply) :
    ∃ n, replyDelivers bytes r = bytes.take n := by
  cases r with
  | ok => exact ⟨bytes.length, by simp [replyDelivers]⟩
  | fail n => exact ⟨n, rfl⟩

/-! ### Performing a plan -/

/-- A fact that every step of a plan keeps holds after the plan, however it ends. -/
theorem performFrom_keeps (P : State → Prop) (E : Nat → OpError)
    (hseq : ∀ s k, P s → P (s.setSeq k)) (hadv : ∀ s, P s → P s.advance) :
    ∀ (plan : List PlanStep) (j : Nat) (s : State),
      (∀ w, .set w ∈ plan → ∀ s, P s → P (s.write w)) →
      (∀ d, .delay d ∈ plan → ∀ s, P s → P (s.wait d)) →
      (∀ bs, .tx bs ∈ plan → ∀ s, P s → P (s.transact bs)) →
      P s → P (performFrom E plan j s).1
  | [], j, s, _, _, _, h => hseq _ _ h
  | .set w :: rest, j, s, hw, hd, ht, h => by
    simp only [performFrom]
    exact performFrom_keeps P E hseq hadv rest j _ (fun w hm => hw w (by simp [hm])) (fun d hm => hd d (by simp [hm]))
      (fun b hm => ht b (by simp [hm])) (hadv _ (hw w (by simp) _ h))
  | .delay d :: rest, j, s, hw, hd, ht, h => by
    simp only [performFrom]
    exact performFrom_keeps P E hseq hadv rest j _ (fun w hm => hw w (by simp [hm])) (fun d hm => hd d (by simp [hm]))
      (fun b hm => ht b (by simp [hm])) (hadv _ (hd d (by simp) _ h))
  | .tx bs :: rest, j, s, hw, hd, ht, h => by
    simp only [performFrom]
    cases s.nextAnswer with
    | ok =>
      exact performFrom_keeps P E hseq hadv rest (j + 1) _ (fun w hm => hw w (by simp [hm]))
        (fun d hm => hd d (by simp [hm])) (fun b hm => ht b (by simp [hm])) (hadv _ (ht bs (by simp) _ h))
    | fail => exact hseq _ _ (ht bs (by simp) _ h)

/-- The same of `perform`. -/
theorem perform_keeps (P : State → Prop) (E : Nat → OpError) (plan : List PlanStep)
    (hseq : ∀ s k, P s → P (s.setSeq k)) (hadv : ∀ s, P s → P s.advance)
    (hw : ∀ w, .set w ∈ plan → ∀ s, P s → P (s.write w))
    (hd : ∀ d, .delay d ∈ plan → ∀ s, P s → P (s.wait d))
    (ht : ∀ bs, .tx bs ∈ plan → ∀ s, P s → P (s.transact bs)) (h : P s) : P (perform E plan s).1 :=
  performFrom_keeps P E hseq hadv plan 0 _ hw hd ht (hseq _ _ h)

/-- `SEQ` is idle after a plan, however it ends (10_state.md R34). -/
theorem performFrom_seq (E : Nat → OpError) :
    ∀ (plan : List PlanStep) (j : Nat) (s : State), (performFrom E plan j s).1.seq = none
  | [], _, _ => rfl
  | .set _ :: rest, j, _ => performFrom_seq E rest j _
  | .delay _ :: rest, j, _ => performFrom_seq E rest j _
  | .tx _ :: rest, j, s => by
    simp only [performFrom]
    cases s.nextAnswer with
    | ok => exact performFrom_seq E rest (j + 1) _
    | fail => rfl

@[simp] theorem perform_seq (E : Nat → OpError) (plan : List PlanStep) : (perform E plan s).1.seq = none :=
  performFrom_seq E plan 0 _

/-- The transactions of a plan. -/
def planTxs (plan : List PlanStep) : List (List Byte) :=
  plan.filterMap fun
    | .tx bs => some bs
    | _ => none

/-- The error of a plan is that of one of its transactions (00_scope.md R13). -/
theorem performFrom_error (E : Nat → OpError) :
    ∀ (plan : List PlanStep) (j : Nat) (s : State) (e : OpError), (performFrom E plan j s).2 = some e →
      ∃ k, k < (planTxs plan).length ∧ e = E (j + k)
  | [], _, _, _, h => by simp [performFrom] at h
  | .set _ :: rest, j, s, e, h => by
    simpa [planTxs] using performFrom_error E rest j _ e h
  | .delay _ :: rest, j, s, e, h => by
    simpa [planTxs] using performFrom_error E rest j _ e h
  | .tx bs :: rest, j, s, e, h => by
    simp only [performFrom] at h
    cases ha : s.nextAnswer with
    | ok =>
      rw [ha] at h
      obtain ⟨k, hk, rfl⟩ := performFrom_error E rest (j + 1) _ e h
      exact ⟨k + 1, by simpa [planTxs] using hk, by rw [Nat.add_right_comm, Nat.add_assoc]⟩
    | fail =>
      rw [ha] at h
      exact ⟨0, by simp [planTxs], by simpa using h.symm⟩

theorem perform_error {E : Nat → OpError} {plan : List PlanStep} {s : State} {e : OpError}
    (h : (perform E plan s).2 = some e) : ∃ k, k < (planTxs plan).length ∧ e = E k := by
  simpa using performFrom_error E plan 0 _ e h

/-! ### Plans of one shape -/

/-- The state after one transaction and nothing else. -/
theorem perform_tx (E : Nat → OpError) (bs : List Byte) :
    perform E [.tx bs] s =
      ((s.transact bs).setSeq none, if s.nextAnswer = .ok then none else some (E 0)) := by
  simp only [perform, performFrom, nextAnswer_setSeq]
  cases s.nextAnswer <;> simp [State.ext_iff, State.nextAnswer]

/-- One transaction and then a delay, which a failed transaction cuts off. -/
theorem perform_tx_delay (E : Nat → OpError) (bs : List Byte) (d : DelayParam) :
    perform E [.tx bs, .delay d] s =
      match s.nextAnswer with
      | .ok => (((s.transact bs).wait d).setSeq none, none)
      | .fail => ((s.transact bs).setSeq none, some (E 0)) := by
  simp only [perform, performFrom, nextAnswer_setSeq]
  cases s.nextAnswer <;> simp [State.ext_iff, State.nextAnswer]

/-- One register write, then one transaction: the write stays whatever the answer (60_exceptions.md R179). -/
theorem perform_set_tx (E : Nat → OpError) (w : FieldWrite) (bs : List Byte) :
    perform E [.set w, .tx bs] s =
      (((s.write w).transact bs).setSeq none, if s.nextAnswer = .ok then none else some (E 0)) := by
  simp only [perform, performFrom, nextAnswer_setSeq, nextAnswer_advance, nextAnswer_write]
  cases s.nextAnswer <;> cases w <;>
    simp [State.ext_iff, State.nextAnswer, State.transact, State.record, State.drive, State.write, State.setSeq,
      State.advance, State.takeReply, State.nextReply, State.draw] <;> cases s.replies <;> simp

/-! ### Outcomes -/

/-- An operation's plan always leads to a next state, with the result or the error reported. -/
theorem runPlan_eq (E : Nat → OpError) (plan : List PlanStep) (r : Report) :
    runPlan E plan r s =
      .next ((perform E plan s).1.report (match (perform E plan s).2 with | none => r | some e => .error e)) := by
  unfold runPlan
  cases (perform E plan s).2 <;> rfl

/-- In a constructed block the gate is open (10_state.md R32). -/
theorem whenConstructed_of {s : State} (h : s.life = .constructed) (k : Host.Outcome State Fault Refusal) :
    whenConstructed s k = k := by
  simp [whenConstructed, h]

/-- Before construction the gate refuses (10_state.md R32). -/
theorem whenConstructed_refuses {s : State} (h : s.life = .unconstructed) (k : Host.Outcome State Fault Refusal) :
    whenConstructed s k = .refused .notConstructed := by
  simp [whenConstructed, h]

/-- A next state behind the gate: the block is constructed, and the operation gave it. -/
theorem whenConstructed_next {s t : State} {k : Host.Outcome State Fault Refusal}
    (h : whenConstructed s k = .next t) : s.life = .constructed ∧ k = .next t := by
  unfold whenConstructed at h
  cases hl : s.life with
  | constructed => rw [hl] at h; exact ⟨rfl, h⟩
  | unconstructed => rw [hl] at h; cases h

end Sys2Proof.Machine
end

