-- ==== Sys2Proof/Laws/Encoder.lean ====
section
/-! SUPPORT. What the bits of an emitted byte are under a valid pin map, and the lengths of pairs and frames
(30_encoding.md R76 to R82). -/

namespace Sys2Proof.Machine

/-! ### Lengths -/

@[simp] theorem pair_length (m : PerSignal Byte) (lit rs : Bool) (n : Nibble) : (pair m lit rs n).length = 2 := rfl

@[simp] theorem frame_length (m : PerSignal Byte) (lit rs : Bool) (v : Byte) : (frame m lit rs v).length = 4 := rfl

@[simp] theorem encodeInstr_command (m : PerSignal Byte) (lit : Bool) (v : Byte) :
    encodeInstr m lit (.command v) = frame m lit false v := rfl

@[simp] theorem encodeInstr_data (m : PerSignal Byte) (lit : Bool) (v : Byte) :
    encodeInstr m lit (.data v) = frame m lit true v := rfl

/-- The four bytes of a frame. -/
theorem frame_eq (m : PerSignal Byte) (lit rs : Bool) (v : Byte) :
    frame m lit rs v =
      [base m lit rs ||| nib m (highNibble v) ||| m.en, base m lit rs ||| nib m (highNibble v),
       base m lit rs ||| nib m (lowNibble v) ||| m.en, base m lit rs ||| nib m (lowNibble v)] := rfl

/-! ### Bits of masks -/

/-- The bits of a mask: the bit of its position and no other. -/
theorem maskOf_getLsbD (o : Option (Fin 8)) (k : Fin 8) : (maskOf o).getLsbD k.val = decide (o = some k) := by
  revert o k; decide

/-- A byte meets the mask of a present signal exactly in that signal's bit. -/
theorem and_maskOf_eq_zero (b : Byte) (k : Fin 8) : b &&& maskOf (some k) = 0 ↔ b.getLsbD k.val = false := by
  revert b k; decide

theorem and_maskOf_none (b : Byte) : b &&& maskOf none = 0 := by simp [maskOf]

/-- Two bytes are equal when their eight bits are. -/
theorem byte_ext {a b : Byte} (h : ∀ k : Fin 8, a.getLsbD k.val = b.getLsbD k.val) : a = b :=
  BitVec.eq_of_getLsbD_eq fun i hi => h ⟨i, hi⟩

theorem maskIf_getLsbD (c : Bool) (m : Byte) (k : Nat) : (maskIf c m).getLsbD k = (c && m.getLsbD k) := by
  cases c <;> simp [maskIf]

/-- Distinct present signals have distinct bits (10_state.md R23). -/
theorem PinMapValid.pos_ne {pos : PerSignal (Option (Fin 8))} {m : PerSignal Byte} (h : PinMapValid pos m)
    {s t : Signal} {k : Fin 8} (hs : pos.get s = some k) (hne : s ≠ t) : pos.get t ≠ some k := fun ht =>
  h.distinct s t hne (by simp [hs]) (hs.trans ht.symm)

/-- The bit `k` of a signal's mask under a valid map. -/
theorem PinMapValid.mask_bit {pos : PerSignal (Option (Fin 8))} {m : PerSignal Byte} (h : PinMapValid pos m)
    (s : Signal) (k : Fin 8) : (m.get s).getLsbD k.val = decide (pos.get s = some k) := by
  rw [h.masks, maskOf_getLsbD]

/-- The level a byte `base(rs) | nib(n)`, with `en` or without, puts on a signal's line. -/
def lineLevel (lit rs e : Bool) (n : Nibble) : Signal → Bool
  | .rs => rs
  | .rw => false
  | .en => e
  | .bl => lit
  | .d0 => n.getLsbD 0
  | .d1 => n.getLsbD 1
  | .d2 => n.getLsbD 2
  | .d3 => n.getLsbD 3

/-- The byte with those levels. -/
def levelByte (m : PerSignal Byte) (lit rs e : Bool) (n : Nibble) : Byte :=
  base m lit rs ||| nib m n ||| maskIf e m.en

theorem levelByte_true (m : PerSignal Byte) (lit rs : Bool) (n : Nibble) :
    levelByte m lit rs true n = base m lit rs ||| nib m n ||| m.en := rfl

theorem levelByte_false (m : PerSignal Byte) (lit rs : Bool) (n : Nibble) :
    levelByte m lit rs false n = base m lit rs ||| nib m n := by
  simp [levelByte, maskIf]

/-- The re-latch byte has the data lines and `en` low (30_encoding.md R89). -/
theorem relatchByte_eq (m : PerSignal Byte) (level : Byte) :
    relatchByte m level = levelByte m (isLit level) true false 0 := by
  simp [relatchByte, levelByte, nib, maskIf]

/-- A frame is four such bytes. -/
theorem frame_levels (m : PerSignal Byte) (lit rs : Bool) (v : Byte) :
    frame m lit rs v =
      [levelByte m lit rs true (highNibble v), levelByte m lit rs false (highNibble v),
       levelByte m lit rs true (lowNibble v), levelByte m lit rs false (lowNibble v)] := by
  simp [frame_eq, levelByte_true, levelByte_false]

/-- A pair is two. -/
theorem pair_levels (m : PerSignal Byte) (lit rs : Bool) (n : Nibble) :
    pair m lit rs n = [levelByte m lit rs true n, levelByte m lit rs false n] := by
  simp [pair, levelByte_true, levelByte_false]

/-- The bit at a present signal's position is that signal's level. -/
theorem levelByte_at {pos : PerSignal (Option (Fin 8))} {m : PerSignal Byte} (h : PinMapValid pos m)
    (lit rs e : Bool) (n : Nibble) {s : Signal} {k : Fin 8} (hs : pos.get s = some k) :
    (levelByte m lit rs e n).getLsbD k.val = lineLevel lit rs e n s := by
  have key : ∀ t, (m.get t).getLsbD k.val = decide (s = t) := fun t => by
    rw [h.mask_bit]
    by_cases ht : s = t
    · subst ht; simp [hs]
    · simp [h.pos_ne hs ht, ht]
  have rs' := key .rs; have en' := key .en; have bl' := key .bl
  have d0' := key .d0; have d1' := key .d1; have d2' := key .d2; have d3' := key .d3
  simp only [PerSignal.get] at rs' en' bl' d0' d1' d2' d3'
  simp only [levelByte, base, nib, BitVec.getLsbD_or, maskIf_getLsbD, rs', en', bl', d0', d1', d2', d3']
  cases s <;> simp [lineLevel]

/-- A bit at no present signal's position is 0 (20_memory.md R58). -/
theorem levelByte_unassigned {pos : PerSignal (Option (Fin 8))} {m : PerSignal Byte} (h : PinMapValid pos m)
    (lit rs e : Bool) (n : Nibble) {k : Fin 8} (hk : ∀ t, t ≠ .rw → pos.get t ≠ some k) :
    (levelByte m lit rs e n).getLsbD k.val = false := by
  have hb := fun t (ht : t ≠ Signal.rw) => (h.mask_bit t k).trans (decide_eq_false (hk t ht))
  have rs' := hb .rs (by decide); have en' := hb .en (by decide); have bl' := hb .bl (by decide)
  have d0' := hb .d0 (by decide); have d1' := hb .d1 (by decide); have d2' := hb .d2 (by decide)
  have d3' := hb .d3 (by decide)
  simp only [PerSignal.get] at rs' en' bl' d0' d1' d2' d3'
  simp only [levelByte, base, nib, BitVec.getLsbD_or, maskIf_getLsbD, rs', en', bl', d0', d1', d2', d3', Bool.and_false,
    Bool.or_false]

/-- A byte meets a signal's mask exactly when the signal is present and its level is 1. -/
theorem levelByte_and_mask {pos : PerSignal (Option (Fin 8))} {m : PerSignal Byte} (h : PinMapValid pos m)
    (lit rs e : Bool) (n : Nibble) (s : Signal) :
    levelByte m lit rs e n &&& m.get s ≠ 0 ↔ pos.get s ≠ none ∧ lineLevel lit rs e n s = true := by
  rw [h.masks]
  cases hs : pos.get s with
  | none => simp [maskOf]
  | some k => rw [Ne, and_maskOf_eq_zero, levelByte_at h lit rs e n hs]; simp

/-- Every such byte is a legal one (20_memory.md R58, 30_encoding.md R80). -/
theorem levelByte_legal {pos : PerSignal (Option (Fin 8))} {m : PerSignal Byte} (h : PinMapValid pos m)
    (lit rs e : Bool) (n : Nibble) : ByteLegal m (levelByte m lit rs e n) := by
  constructor
  · refine byte_ext fun k => ?_
    simp only [drivenBits, levelByte, base, nib, BitVec.getLsbD_and, BitVec.getLsbD_or, BitVec.getLsbD_not,
      maskIf_getLsbD, k.isLt, decide_true, Bool.true_and]
    generalize m.rs.getLsbD k = a1; generalize m.en.getLsbD k = a2; generalize m.bl.getLsbD k = a3
    generalize m.d0.getLsbD k = a4; generalize m.d1.getLsbD k = a5; generalize m.d2.getLsbD k = a6
    generalize m.d3.getLsbD k = a7; generalize n.getLsbD 0 = b0; generalize n.getLsbD 1 = b1
    generalize n.getLsbD 2 = b2; generalize n.getLsbD 3 = b3
    clear h
    cases a1 <;> cases a2 <;> cases a3 <;> cases a4 <;> cases a5 <;> cases a6 <;> cases a7 <;> simp
  · have := mt (levelByte_and_mask h lit rs e n .rw).1
    simpa [lineLevel, PerSignal.get] using this

theorem frame_legal {pos : PerSignal (Option (Fin 8))} {m : PerSignal Byte} (h : PinMapValid pos m)
    (lit rs : Bool) (v : Byte) : ∀ b ∈ frame m lit rs v, ByteLegal m b := by
  simp [frame_levels, levelByte_legal h]

theorem pair_legal {pos : PerSignal (Option (Fin 8))} {m : PerSignal Byte} (h : PinMapValid pos m)
    (lit rs : Bool) (n : Nibble) : ∀ b ∈ pair m lit rs n, ByteLegal m b := by
  simp [pair_levels, levelByte_legal h]

theorem relatchByte_legal {pos : PerSignal (Option (Fin 8))} {m : PerSignal Byte} (h : PinMapValid pos m)
    (level : Byte) : ByteLegal m (relatchByte m level) := by
  rw [relatchByte_eq]; exact levelByte_legal h _ _ _ _

/-- A mandatory signal's line is met exactly when its level is 1. -/
theorem levelByte_and_mandatory {pos : PerSignal (Option (Fin 8))} {m : PerSignal Byte} (h : PinMapValid pos m)
    (lit rs e : Bool) (n : Nibble) {s : Signal} (h1 : s ≠ .rw) (h2 : s ≠ .bl) :
    levelByte m lit rs e n &&& m.get s ≠ 0 ↔ lineLevel lit rs e n s = true := by
  rw [levelByte_and_mask h]; simp [h.mandatory s h1 h2]

/-- `unnib` reads the nibble back (30_encoding.md R82). -/
theorem unnib_levelByte {pos : PerSignal (Option (Fin 8))} {m : PerSignal Byte} (h : PinMapValid pos m)
    (lit rs e : Bool) (n : Nibble) : unnib m (levelByte m lit rs e n) = n := by
  have hd := fun s (h1 : s ≠ Signal.rw) (h2 : s ≠ Signal.bl) => levelByte_and_mandatory h lit rs e n h1 h2
  have d0' := hd .d0 (by decide) (by decide); have d1' := hd .d1 (by decide) (by decide)
  have d2' := hd .d2 (by decide) (by decide); have d3' := hd .d3 (by decide) (by decide)
  simp only [PerSignal.get, lineLevel] at d0' d1' d2' d3'
  simp only [unnib, d0', d1', d2', d3']
  clear d0' d1' d2' d3' hd h
  revert n; decide

/-- High and low nibble make the byte (30_encoding.md R54). -/
theorem nibbles_join (v : Byte) : ((highNibble v).setWidth 8 <<< 4) ||| (lowNibble v).setWidth 8 = v := by
  revert v; decide

end Sys2Proof.Machine
end

