-- ==== Sys2Proof/Laws/Batch.lean ====
section
/-! SUPPORT. What `batch` makes of a buffer (43_transaction_batcher.md R131): the state is as before but for `CNT`, and
the transactions are cut after every `K` instructions. -/

namespace Sys2Proof.Machine

/-- The batcher leaves only `CNT` written, and that 0 (10_state.md R33). -/
theorem batchLoop_state : ∀ (bs cur : List Byte) (s : State), (batchLoop s cur bs).1 = s.setCnt 0
  | [], _, _ => rfl
  | b :: rest, cur, s => by
    unfold batchLoop
    split
    · exact batchLoop_state rest _ _
    · exact batchLoop_state rest _ _

@[simp] theorem batch_state (s : State) (bs : List Byte) : (batch s bs).1 = s.setCnt 0 := by
  cases bs with
  | nil => rfl
  | cons b rest => exact batchLoop_state _ _ _

/-- The transactions depend on the masks, the backlight, the frame bound and the count alone. -/
theorem batchLoop_congr : ∀ (bs cur : List Byte) (s t : State), s.mask = t.mask → s.bl = t.bl → s.cfg = t.cfg →
    s.cnt = t.cnt → (batchLoop s cur bs).2 = (batchLoop t cur bs).2
  | [], _, _, _, _, _, _, _ => rfl
  | b :: rest, cur, s, t, hm, hb, hc, hn => by
    have hl : s.lit = t.lit := by simp [State.lit, hb]
    unfold batchLoop
    simp only [hm, hl, hc, hn]
    split
    · simp only
      rw [batchLoop_congr rest _ (s.setCnt 4) (t.setCnt 4) hm hb hc rfl]
    · exact batchLoop_congr rest _ (s.setCnt _) (t.setCnt _) hm hb hc rfl

@[simp] theorem batch_nil (s : State) : (batch s []).2 = [] := rfl

theorem batch_congr {s t : State} (bs : List Byte) (hm : s.mask = t.mask) (hb : s.bl = t.bl) (hc : s.cfg = t.cfg) :
    (batch s bs).2 = (batch t bs).2 := by
  cases bs with
  | nil => rfl
  | cons b rest => exact batchLoop_congr _ _ _ _ hm hb hc rfl

theorem perTransaction_pos (c : Config) : 0 < perTransaction c := by
  simp only [perTransaction, frameBound]; omega

theorem perTransaction_le (c : Config) : 4 * perTransaction c ≤ frameBound c := by
  simp only [perTransaction, frameBound]; omega

/-- The loop with `q` instructions in the open transaction: the rest fits, or it is cut after `K - q` more. -/
theorem batchLoop_txs : ∀ (bs cur : List Byte) (s : State) (q : Nat), s.cnt = 4 * q → q ≤ perTransaction s.cfg →
    (batchLoop s cur bs).2 =
      if bs.length ≤ perTransaction s.cfg - q then [cur ++ bs.flatMap (frame s.mask s.lit true)]
      else (cur ++ (bs.take (perTransaction s.cfg - q)).flatMap (frame s.mask s.lit true)) ::
        (batch s (bs.drop (perTransaction s.cfg - q))).2
  | [], cur, s, q, _, _ => by simp [batchLoop]
  | b :: rest, cur, s, q, hc, hq => by
    have hK : perTransaction s.cfg = s.cfg.frameRoom / 4 + 1 := by
      simp only [perTransaction, frameBound]; omega
    have hb : frameBound s.cfg - 4 = s.cfg.frameRoom := by simp [frameBound]
    have hl : ∀ n, (s.setCnt n).lit = s.lit := fun _ => rfl
    by_cases hf : frameBound s.cfg - 4 < s.cnt
    · have hqK : q = perTransaction s.cfg := by omega
      have hz : perTransaction s.cfg - q = 0 := by omega
      have hn : ¬ s.cfg.frameRoom < (s.setCnt 0).cnt := by simp
      simp only [hz, List.length_cons, Nat.le_zero, Nat.add_one_ne_zero, if_false, List.take_zero, List.flatMap_nil,
        List.append_nil, List.drop_zero]
      conv_lhs => unfold batchLoop
      rw [if_pos hf]
      simp only [batch]
      conv_rhs => unfold batchLoop
      simp only [setCnt_cfg, setCnt_mask, hl, hb]
      rw [if_neg hn]
      rfl
    · have ih := batchLoop_txs rest (cur ++ frame s.mask s.lit true b) (s.setCnt (s.cnt + 4)) (q + 1)
        (by simp [hc]; omega) (by simp only [setCnt_cfg]; omega)
      have hsub : perTransaction s.cfg - q = (perTransaction s.cfg - (q + 1)) + 1 := by omega
      unfold batchLoop
      rw [if_neg hf, encodeInstr_data, ih]
      simp only [setCnt_cfg, setCnt_mask, hl, hsub, List.length_cons, Nat.add_le_add_iff_right, List.take_succ_cons,
        List.drop_succ_cons, List.flatMap_cons, List.append_assoc]
      rw [batch_congr (s := s.setCnt (s.cnt + 4)) (t := s) (rest.drop _) rfl rfl rfl]

/-- `batch` of a buffer that fits one transaction. -/
theorem batch_fits {s : State} {bs : List Byte} (hne : bs ≠ []) (h : bs.length ≤ perTransaction s.cfg) :
    (batch s bs).2 = [bs.flatMap (frame s.mask s.lit true)] := by
  obtain ⟨b, rest, rfl⟩ := List.exists_cons_of_ne_nil hne
  have := batchLoop_txs (b :: rest) [] (s.setCnt 0) 0 rfl (Nat.zero_le _)
  simp only [batch, this, setCnt_cfg, setCnt_mask, Nat.sub_zero, h, if_true, List.nil_append]
  rfl

/-- `batch` of a longer buffer: one full transaction, then `batch` of the rest. -/
theorem batch_cut {s : State} {bs : List Byte} (h : perTransaction s.cfg < bs.length) :
    (batch s bs).2 =
      (bs.take (perTransaction s.cfg)).flatMap (frame s.mask s.lit true) ::
        (batch s (bs.drop (perTransaction s.cfg))).2 := by
  obtain ⟨b, rest, rfl⟩ := List.exists_cons_of_ne_nil (List.ne_nil_of_length_pos (Nat.zero_lt_of_lt h))
  have := batchLoop_txs (b :: rest) [] (s.setCnt 0) 0 rfl (Nat.zero_le _)
  rw [if_neg (by simpa using h)] at this
  simp only [batch, this, setCnt_cfg, setCnt_mask, Nat.sub_zero, List.nil_append]
  rfl

/-- Induction along the transactions of `batch`. -/
theorem batch_induction (s : State) (P : List Byte → List (List Byte) → Prop) (hnil : P [] [])
    (hlast : ∀ bs, bs ≠ [] → bs.length ≤ perTransaction s.cfg → P bs [bs.flatMap (frame s.mask s.lit true)])
    (hcut : ∀ bs, perTransaction s.cfg < bs.length →
      P (bs.drop (perTransaction s.cfg)) (batch s (bs.drop (perTransaction s.cfg))).2 →
      P bs ((bs.take (perTransaction s.cfg)).flatMap (frame s.mask s.lit true) ::
        (batch s (bs.drop (perTransaction s.cfg))).2)) :
    ∀ bs, P bs (batch s bs).2 := by
  intro bs
  generalize hn : bs.length = n
  induction n using Nat.strongRecOn generalizing bs with
  | ind n ih =>
    by_cases hne : bs = []
    · subst hne; exact hnil
    · by_cases hfit : bs.length ≤ perTransaction s.cfg
      · rw [batch_fits hne hfit]; exact hlast bs hne hfit
      · have hK := perTransaction_pos s.cfg
        rw [batch_cut (by omega)]
        exact hcut bs (by omega) (ih (bs.length - perTransaction s.cfg) (by omega) _ (by simp))

/-- Four bytes an instruction (43_transaction_batcher.md R131). -/
theorem flatMap_frame_length (m : PerSignal Byte) (lit rs : Bool) (bs : List Byte) :
    (bs.flatMap (frame m lit rs)).length = 4 * bs.length := by
  induction bs with
  | nil => rfl
  | cons b rest ih => simp [List.flatMap_cons, ih]; omega

/-- Every transaction of `batch` is the frames of some of the buffer's bytes, at least one and at most `K`. -/
theorem batch_mem {s : State} {bs x : List Byte} (hx : x ∈ (batch s bs).2) :
    ∃ part, part ≠ [] ∧ part.length ≤ perTransaction s.cfg ∧ x = part.flatMap (frame s.mask s.lit true) := by
  revert hx
  refine batch_induction s (fun bs txs => x ∈ txs → _) (by simp) ?_ ?_ bs
  · intro bs hne hle hx
    exact ⟨bs, hne, hle, by simpa using hx⟩
  · intro bs hlt ih hx
    rcases List.mem_cons.1 hx with rfl | hx
    · have := perTransaction_pos s.cfg
      refine ⟨bs.take (perTransaction s.cfg), ?_, by simp, rfl⟩
      simp only [ne_eq, List.take_eq_nil_iff, not_or]
      exact ⟨by omega, fun h => by simp [h] at hlt⟩
    · exact ih hx

end Sys2Proof.Machine
end

