-- ==== Sys2Proof/Laws/Decode.lean ====
section
/-! SUPPORT. The operand codes decode to what was encoded (30_encoding.md R74), and what decodes was so encoded. -/

namespace Sys2Proof

@[simp] theorem decodeBit_encodeBit (b : Bool) : decodeBit (encodeBit b) = .ok b := by cases b <;> rfl

/-- The byte of a one-bit operand is its code. -/
theorem decodeBit_ok {b : Byte} {x : Bool} (h : decodeBit b = .ok x) : encodeBit x = b := by
  unfold decodeBit at h
  split at h
  · cases h; simp_all [encodeBit]
  · split at h
    · cases h; simp_all [encodeBit]
    · cases h

@[simp] theorem entryDirOf_toBool (d : EntryDir) : entryDirOf d.toBool = d := by cases d <;> rfl

@[simp] theorem toBool_entryDirOf (b : Bool) : (entryDirOf b).toBool = b := by cases b <;> rfl

@[simp] theorem scrollDirOf_toBool (d : ScrollDir) : scrollDirOf d.toBool = d := by cases d <;> rfl

@[simp] theorem toBool_scrollDirOf (b : Bool) : (scrollDirOf b).toBool = b := by cases b <;> rfl

/-- The two bytes of an optional pin are its code. -/
theorem decodePin_ok {flag p : Byte} {x : Option Byte} (h : decodePin flag p = .ok x) : encodePin x = [flag, p] := by
  unfold decodePin at h
  split at h
  · cases h; simp_all [encodePin]
  · split at h
    · cases h; simp_all [encodePin]
    · cases h

@[simp] theorem decodePin_absent : decodePin 0 0 = .ok none := by decide

@[simp] theorem decodePin_present (p : Byte) : decodePin 1 p = .ok (some p) := by simp [decodePin]

/-- The image's first byte holds the operation's OPSEL. -/
@[simp] theorem opselOf_encode (i : Instr) : opselOf (i.opsel.setWidth 8) = i.opsel := by cases i <;> rfl

end Sys2Proof
end

