-- ==== Sys2Proof/Laws/Flags.lean ====
section
/-! SUPPORT. The bits of the updated flag groups (41_display_state.md R110 to R113), and that repeating an update changes
nothing (R114). -/

namespace Sys2Proof.Machine

variable (dc : BitVec 3) (on : Bool)

@[simp] theorem dcWithDisp_disp : (dcWithDisp dc on)[2] = on := by revert dc on; decide
@[simp] theorem dcWithDisp_cur : (dcWithDisp dc on)[1] = dc[1] := by revert dc on; decide
@[simp] theorem dcWithDisp_blink : (dcWithDisp dc on)[0] = dc[0] := by revert dc on; decide

@[simp] theorem dcWithCur_disp : (dcWithCur dc on)[2] = dc[2] := by revert dc on; decide
@[simp] theorem dcWithCur_cur : (dcWithCur dc on)[1] = on := by revert dc on; decide
@[simp] theorem dcWithCur_blink : (dcWithCur dc on)[0] = dc[0] := by revert dc on; decide

@[simp] theorem dcWithBlink_disp : (dcWithBlink dc on)[2] = dc[2] := by revert dc on; decide
@[simp] theorem dcWithBlink_cur : (dcWithBlink dc on)[1] = dc[1] := by revert dc on; decide
@[simp] theorem dcWithBlink_blink : (dcWithBlink dc on)[0] = on := by revert dc on; decide

@[simp] theorem dcWithDisp_twice : dcWithDisp (dcWithDisp dc on) on = dcWithDisp dc on := by revert dc on; decide
@[simp] theorem dcWithCur_twice : dcWithCur (dcWithCur dc on) on = dcWithCur dc on := by revert dc on; decide
@[simp] theorem dcWithBlink_twice : dcWithBlink (dcWithBlink dc on) on = dcWithBlink dc on := by revert dc on; decide

@[simp] theorem emOf_dir (direction : EntryDir) (autoscroll : Bool) : emDir (emOf direction autoscroll) = direction := by
  cases direction <;> cases autoscroll <;> decide

@[simp] theorem emOf_autoscroll (direction : EntryDir) (autoscroll : Bool) :
    emAutoscroll (emOf direction autoscroll) = autoscroll := by
  cases direction <;> cases autoscroll <;> decide

end Sys2Proof.Machine
end

