-- ==== Sys2Proof/Laws/Plans.lean ====
section
/-! SUPPORT. Plans that are transactions only, under listed replies: all answered `ok`, or the one at `j` failing
(00_scope.md R13, 60_exceptions.md R178). -/

namespace Sys2Proof.Machine

/-- All transactions of a plan are answered `ok`. -/
theorem performFrom_txs_ok (E : Nat → OpError) : ∀ (txs : List (List Byte)) (j : Nat) (s : State) (rest : List Reply),
    s.replies = List.replicate txs.length .ok ++ rest →
    performFrom E (txs.map .tx) j s =
      ({ s with
          seq := none, replies := rest
          trace := s.trace ++ txs.map (.tx s.cfg.i2cAddr · .ok)
          pins := s.pins ++ txs.flatten }, none)
  | [], j, s, rest, h => by
    simp only [List.length_nil, List.replicate_zero, List.nil_append] at h
    simp [performFrom, State.ext_iff, h]
  | x :: txs, j, s, rest, h => by
    have hr : s.replies = .ok :: (List.replicate txs.length .ok ++ rest) := by
      simpa [List.replicate_succ] using h
    have ha : s.nextAnswer = .ok := by simp [nextAnswer_cons s hr, replyAnswer]
    have hd : replyDelivers x s.nextReply = x := by simp [nextReply_cons s hr, replyDelivers]
    simp only [List.map_cons, performFrom, ha]
    rw [performFrom_txs_ok E txs (j + 1) _ rest (by simp [hr])]
    simp [ha, hd, hr]

/-- The transaction at `j` fails after `n` of its bytes, the earlier ones are answered `ok`. -/
theorem performFrom_txs_fail (E : Nat → OpError) : ∀ (txs : List (List Byte)) (i j n : Nat) (x : List Byte) (s : State)
    (rest : List Reply), txs[j]? = some x → s.replies = List.replicate j .ok ++ .fail n :: rest →
    performFrom E (txs.map .tx) i s =
      ({ s with
          seq := none, replies := rest
          trace := s.trace ++ (txs.take j).map (.tx s.cfg.i2cAddr · .ok) ++ [.tx s.cfg.i2cAddr x .fail]
          pins := s.pins ++ (txs.take j).flatten ++ x.take n }, some (E (i + j)))
  | [], _, _, _, _, _, _, hx, _ => by simp at hx
  | y :: txs, i, 0, n, x, s, rest, hx, h => by
    have hr : s.replies = .fail n :: rest := by simpa using h
    have ha : s.nextAnswer = .fail := by simp [nextAnswer_cons s hr, replyAnswer]
    have hd : replyDelivers x s.nextReply = x.take n := by simp [nextReply_cons s hr, replyDelivers]
    obtain rfl : y = x := by simpa using hx
    simp [performFrom, ha, State.ext_iff, hd, hr]
  | y :: txs, i, j + 1, n, x, s, rest, hx, h => by
    have hr : s.replies = .ok :: (List.replicate j .ok ++ .fail n :: rest) := by
      simpa [List.replicate_succ] using h
    have ha : s.nextAnswer = .ok := by simp [nextAnswer_cons s hr, replyAnswer]
    have hd : replyDelivers y s.nextReply = y := by simp [nextReply_cons s hr, replyDelivers]
    simp only [List.map_cons, performFrom, ha]
    rw [performFrom_txs_fail E txs (i + 1) j n x _ rest (by simpa using hx) (by simp [hr])]
    simp [ha, hd, hr, Nat.add_assoc, Nat.add_comm 1 j]

/-- The transactions of a plan made of transactions. -/
@[simp] theorem planTxs_map_tx (txs : List (List Byte)) : planTxs (txs.map .tx) = txs := by
  induction txs with
  | nil => rfl
  | cons x txs ih => simp [planTxs]

/-- `create_glyph`'s plan is made of transactions (45_display_controller.md R154). -/
theorem cmd_cons_map_tx (s : State) (v : Byte) (txs : List (List Byte)) :
    s.cmd v :: txs.map .tx = (frame s.mask s.lit false v :: txs).map .tx := rfl

end Sys2Proof.Machine
end

