-- ==== Sys2Proof/Laws/Families.lean ====
section
/-! SUPPORT. The next state of each plan shape that the operations share: one transaction, one transaction and a delay, a
register write and one transaction (00_scope.md R13; 60_exceptions.md R173, R179). -/

namespace Sys2Proof.Machine

/-- One transaction (42_command_encoder.md R121, R122; 45_display_controller.md R152, R156). -/
theorem runPlan_tx (s : State) (bytes : List Byte) (r : Report) :
    runPlan singleTransportError [.tx bytes] r s =
      .next { s.transact bytes with
        seq := none
        reports := s.reports ++ [if s.nextAnswer = .ok then r else .error (.transport 0)] } := by
  rw [runPlan_eq, perform_tx]
  cases s.nextAnswer <;> simp [State.ext_iff, singleTransportError]

/-- One transaction and, if it was answered `ok`, a delay (45_display_controller.md R150, R151). -/
theorem runPlan_tx_delay (s : State) (bytes : List Byte) (d : DelayParam) (r : Report) :
    runPlan singleTransportError [.tx bytes, .delay d] r s =
      .next
        (match s.nextAnswer with
        | .ok => { s.transact bytes with
            seq := none
            trace := (s.transact bytes).trace ++ [.delay d (delayMicros s.cfg d)]
            reports := s.reports ++ [r] }
        | .fail => { s.transact bytes with seq := none, reports := s.reports ++ [.error (.transport 0)] }) := by
  rw [runPlan_eq, perform_tx_delay]
  cases s.nextAnswer <;> simp [State.ext_iff, singleTransportError]

/-- A register write, which stays, and one transaction (41_display_state.md R110 to R113; 45_display_controller.md
R157). -/
theorem runPlan_set_tx (s : State) (w : FieldWrite) (bytes : List Byte) (r : Report) :
    runPlan singleTransportError [.set w, .tx bytes] r s =
      .next { (s.write w).transact bytes with
        seq := none
        reports := s.reports ++ [if s.nextAnswer = .ok then r else .error (.transport 0)] } := by
  rw [runPlan_eq, perform_set_tx]
  cases s.nextAnswer <;> simp [State.ext_iff, singleTransportError]

end Sys2Proof.Machine
end

