-- ==== Sys2Proof/Laws/PinMap.lean ====
section
/-! SUPPORT. The checks of `construct` say what 40_pinmap.md R100 says, and what a successful one leaves is a valid pin
map (R103). -/

namespace Sys2Proof.Machine

theorem mem_allSignals (s : Signal) : s ∈ allSignals := by cases s <;> decide

@[simp] theorem get_map {α β : Type} (f : α → β) (x : PerSignal α) (s : Signal) : (x.map f).get s = f (x.get s) := by
  cases s <;> rfl

/-- The fault list of the range check: the signals out of range (R100). -/
theorem mem_rangeFaults {x : PerSignal (Option Byte)} {f : PinFault} :
    f ∈ rangeFaults x ↔ ∃ s p, f = .range s ∧ x.get s = some p ∧ 7 < p.toNat := by
  simp only [rangeFaults, List.mem_filterMap]
  constructor
  · rintro ⟨s, _, h⟩
    cases hx : x.get s with
    | none => simp [hx] at h
    | some p =>
      by_cases hp : 7 < p.toNat
      · simp only [hx, hp, if_true, Option.some.injEq] at h
        exact ⟨s, p, h.symm, hx, hp⟩
      · simp [hx, hp] at h
  · rintro ⟨s, p, rfl, hx, hp⟩
    exact ⟨s, mem_allSignals s, by simp [hx, hp]⟩

/-- The fault list of the conflict check: the pairs that share a position (R100). -/
theorem mem_conflictFaults {x : PerSignal (Option Byte)} {f : PinFault} :
    f ∈ conflictFaults x ↔ ∃ s t, f = .conflict s t ∧ s ≠ t ∧ x.get s = x.get t ∧ x.get s ≠ none := by
  simp only [conflictFaults, List.mem_filterMap, Prod.exists]
  constructor
  · rintro ⟨s, t, _, h⟩
    by_cases hc : s ≠ t ∧ x.get s = x.get t ∧ x.get s ≠ none
    · rw [if_pos hc] at h
      exact ⟨s, t, by simpa using h.symm, hc⟩
    · simp [hc] at h
  · rintro ⟨s, t, rfl, hc⟩
    exact ⟨s, t, List.pair_mem_product.2 ⟨mem_allSignals s, mem_allSignals t⟩, if_pos hc⟩

/-- The range check finds nothing exactly when every position is in range. -/
theorem rangeFaults_eq_nil (x : PerSignal (Option Byte)) : rangeFaults x = [] ↔ PinsInRange x := by
  rw [List.eq_nil_iff_forall_not_mem]
  constructor
  · intro h s p hx
    by_contra hp
    exact h (.range s) (mem_rangeFaults.2 ⟨s, p, rfl, hx, by omega⟩)
  · intro h f hf
    obtain ⟨s, p, _, hx, hp⟩ := mem_rangeFaults.1 hf
    exact absurd (h s p hx) (by omega)

/-- The conflict check finds nothing exactly when present positions are distinct. -/
theorem conflictFaults_eq_nil (x : PerSignal (Option Byte)) : conflictFaults x = [] ↔ PinsDistinct x := by
  rw [List.eq_nil_iff_forall_not_mem]
  constructor
  · intro h s t hst hs he
    exact h (.conflict s t) (mem_conflictFaults.2 ⟨s, t, rfl, hst, he, hs⟩)
  · intro h f hf
    obtain ⟨s, t, _, hst, he, hs⟩ := mem_conflictFaults.1 hf
    exact h s t hst hs he

/-- `construct` finds no fault exactly when the operands pass the checks (R100). -/
theorem pinFaults_eq_nil (p : PinOperands) : pinFaults (positionOperands p) = [] ↔ PinsAccepted p := by
  unfold pinFaults PinsAccepted
  rw [← rangeFaults_eq_nil, ← conflictFaults_eq_nil]
  cases rangeFaults (positionOperands p) <;> simp

/-- What a fault of the list says, range faults first (60_exceptions.md R176). -/
theorem mem_pinFaults {x : PerSignal (Option Byte)} {f : PinFault} (h : f ∈ pinFaults x) :
    (∃ s p, f = .range s ∧ x.get s = some p ∧ 7 < p.toNat) ∨
      (PinsInRange x ∧ ∃ s t, f = .conflict s t ∧ s ≠ t ∧ x.get s ≠ none ∧ x.get s = x.get t) := by
  unfold pinFaults at h
  cases hr : rangeFaults x with
  | nil =>
    rw [hr] at h
    obtain ⟨s, t, rfl, hst, he, hs⟩ := mem_conflictFaults.1 h
    exact .inr ⟨(rangeFaults_eq_nil x).1 hr, s, t, rfl, hst, hs, he⟩
  | cons g rest =>
    rw [hr] at h
    exact .inl (mem_rangeFaults.1 (hr ▸ h))

/-- The chosen fault is one of the list (R101). -/
theorem chosenFault_mem (s : State) (f : PinFault) (rest : List PinFault) :
    s.chosenFault f (f :: rest) ∈ f :: rest := by
  have hlt : Config.freeChoice s.draws % (f :: rest).length < (f :: rest).length := Nat.mod_lt _ (by simp)
  unfold State.chosenFault
  rw [List.getD_eq_getElem _ _ hlt]
  exact List.getElem_mem _

/-- The value of `POS` for an operand in range is that operand. -/
theorem positionOf_val {b : Byte} (h : b.toNat ≤ 7) : (positionOf (some b)).map Fin.val = some b.toNat := by
  simp [positionOf, Fin.ofNat]; omega

/-- Positions in range are equal exactly when their operands are. -/
theorem positionOf_inj {o o' : Option Byte} (h : ∀ b, o = some b → b.toNat ≤ 7) (h' : ∀ b, o' = some b → b.toNat ≤ 7)
    (he : positionOf o = positionOf o') : o = o' := by
  cases o with
  | none => cases o' with
    | none => rfl
    | some b => simp [positionOf] at he
  | some a => cases o' with
    | none => simp [positionOf] at he
    | some b =>
      have ha := positionOf_val (h a rfl)
      rw [he, positionOf_val (h' b rfl)] at ha
      simp only [Option.some.injEq] at ha
      rw [BitVec.eq_of_toNat_eq ha]

@[simp] theorem constructed_get_pos (s : State) (p : PinOperands) (t : Signal) :
    (s.constructed p).pos.get t = positionOf ((positionOperands p).get t) := by
  simp [State.constructed]

@[simp] theorem constructed_get_mask (s : State) (p : PinOperands) (t : Signal) :
    (s.constructed p).mask.get t = maskOf (positionOf ((positionOperands p).get t)) := by
  simp [State.constructed]

/-- A successful `construct` leaves a valid pin map (R103; 10_state.md R23). -/
theorem constructed_valid (s : State) {p : PinOperands} (h : PinsAccepted p) :
    PinMapValid (s.constructed p).pos (s.constructed p).mask := by
  refine ⟨fun t h1 h2 => ?_, fun t u hne hp => ?_, fun t => ?_⟩
  · cases t <;> simp_all [State.constructed, PerSignal.get, PerSignal.map, positionOperands, positionOf]
  · simp only [constructed_get_pos, ne_eq] at hp ⊢
    intro he
    refine h.2 t u hne (fun h0 => hp (by rw [h0]; rfl)) ?_
    exact positionOf_inj (fun b => h.1 t b) (fun b => h.1 u b) he
  · simp

/-- `construct` of accepted operands in an unconstructed block. -/
theorem execConstruct_accepted {s : State} {p : PinOperands} (hs : s.life = .unconstructed) (h : PinsAccepted p) :
    execConstruct p s = .next ((s.constructed p).report .done) := by
  simp [execConstruct, hs, (pinFaults_eq_nil p).2 h, complete]

/-- `construct` of other operands: one of their faults is reported and nothing is written. -/
theorem execConstruct_rejected {s : State} {p : PinOperands} (hs : s.life = .unconstructed) (h : ¬ PinsAccepted p) :
    ∃ f ∈ pinFaults (positionOperands p), execConstruct p s = .next (s.draw.report (.error (.configuration f))) := by
  cases hf : pinFaults (positionOperands p) with
  | nil => exact absurd ((pinFaults_eq_nil p).1 hf) h
  | cons f rest =>
    exact ⟨_, chosenFault_mem s f rest, by simp [execConstruct, hs, hf, raise, State.raised]⟩

end Sys2Proof.Machine
end

