-- ==== Sys2Proof/Laws/Exec.lean ====
section
/-! SUPPORT. What one operation can do, said once: `exec_next` is the inversion of `exec`, `performFrom_grows` says what
performing a plan adds to the trace and to the pins, and `planOf_*` what the steps of each operation's plan are. Facts
about all operations are derived from these and do not unfold `exec`. -/

namespace Sys2Proof.Machine

/-- The plan of an operation, its argument checks passed (00_scope.md R13). -/
def planOf (s : State) : Instr → List PlanStep
  | .construct _ => []
  | .initDisplay columns rows => initPlan s columns rows
  | .clear => [s.cmd 0x01, .delay .settle]
  | .home => [s.cmd 0x02, .delay .settle]
  | .setCursor col row => [s.cmd (cursorByte (cursorSum col row))]
  | .display on => [.set (.dc (dcWithDisp s.dc on)), s.cmd (dcByte (dcWithDisp s.dc on))]
  | .cursor on => [.set (.dc (dcWithCur s.dc on)), s.cmd (dcByte (dcWithCur s.dc on))]
  | .blink on => [.set (.dc (dcWithBlink s.dc on)), s.cmd (dcByte (dcWithBlink s.dc on))]
  | .scroll direction => [s.cmd (scrollByte s.cfg direction)]
  | .entryMode direction autoscroll =>
    [.set (.em (emOf direction autoscroll)), s.cmd (emByte (emOf direction autoscroll))]
  | .setBacklight level => [.set (.bl level), .tx [relatchByte s.mask level]]
  | .createGlyph slot bitmap => s.cmd (glyphByte slot) :: (batch s bitmap).2.map .tx
  | .writeByte byte => [s.data byte]
  | .writeBytes buffer => (batch s buffer).2.map .tx
  | .sendRawCommand byte => [s.cmd byte]

/-- The error of an operation's transaction `j` (60_exceptions.md R172, R173). -/
def errorOf (s : State) : Instr → Nat → OpError
  | .initDisplay _ _ => initError
  | .createGlyph _ _ => glyphTransportError s.cfg
  | .writeBytes _ => dataTransportError s.cfg
  | _ => singleTransportError

/-- The result of an operation that completes (30_encoding.md R72). -/
def resultOf : Instr → Report
  | .writeByte _ => .count 1
  | .writeBytes buffer => .count buffer.length
  | _ => .done

/-- The state in which the plan is performed: `write_bytes` and `create_glyph` have used `CNT` (10_state.md R33). -/
def startOf (s : State) : Instr → State
  | .createGlyph _ _ => s.setCnt 0
  | .writeBytes _ => s.setCnt 0
  | _ => s

/-- The outcome of an operation whose plan was performed. -/
def planOutcome (s : State) (i : Instr) : State :=
  (perform (errorOf s i) (planOf s i) (startOf s i)).1.report
    (match (perform (errorOf s i) (planOf s i) (startOf s i)).2 with
    | none => resultOf i
    | some e => .error e)

/-- In a constructed block an operation other than `construct` whose arguments pass performs its plan. -/
theorem exec_eq_planOutcome {i : Instr} {s : State} (hl : s.life = .constructed) (hi : i.isConstruct = false)
    (ha : ∀ col row, i = .setCursor col row → cursorAddress s col row = .ok (cursorSum col row)) :
    exec i s = .next (planOutcome s i) := by
  cases i with
  | construct => simp [Instr.isConstruct] at hi
  | setCursor col row =>
    simp only [exec, execSetCursor, whenConstructed_of hl, ha col row rfl]
    rw [runPlan_eq]; rfl
  | createGlyph slot bitmap =>
    simp only [exec, execCreateGlyph, whenConstructed_of hl, batch_state]
    rw [runPlan_eq]; rfl
  | writeBytes buffer =>
    simp only [exec, execWriteBytes, whenConstructed_of hl, batch_state]
    rw [runPlan_eq]; rfl
  | display | cursor | blink =>
    simp only [exec, execDisplay, execCursor, execBlink, whenConstructed_of hl, sendDc]
    rw [runPlan_eq]; rfl
  | _ => exact (whenConstructed_of hl _).trans (runPlan_eq s _ _ _)

/-- The address of a cursor position, when the arguments pass, is the exact sum (45_display_controller.md R152). -/
theorem cursorAddress_ok {s : State} {col row : Byte} {a : Nat} (h : cursorAddress s col row = .ok a) :
    a = cursorSum col row := by
  unfold cursorAddress at h
  split at h
  · cases h
  · split at h
    · cases h
    · split at h
      · cases h
      · cases h; rfl

/-- Inversion of `exec`: the four ways an operation leads to a next state. -/
theorem exec_next {i : Instr} {s t : State} (h : exec i s = .next t) :
    (∃ p, i = .construct p ∧ s.life = .unconstructed ∧ PinsAccepted p ∧ t = (s.constructed p).report .done) ∨
    (∃ p f, i = .construct p ∧ s.life = .unconstructed ∧ ¬ PinsAccepted p ∧ f ∈ pinFaults (positionOperands p) ∧
      t = s.draw.report (.error (.configuration f))) ∨
    (∃ col row which, i = .setCursor col row ∧ s.life = .constructed ∧
      cursorAddress s col row = .error which ∧ t = s.report (.error (.invalidArgument which))) ∨
    (i.isConstruct = false ∧ s.life = .constructed ∧ t = planOutcome s i) := by
  by_cases hi : i.isConstruct = false
  · have hl : s.life = .constructed := by
      cases hl : s.life with
      | constructed => rfl
      | unconstructed =>
        exfalso
        cases i with
        | construct => simp [Instr.isConstruct] at hi
        | _ => exact nomatch (whenConstructed_refuses hl _).symm.trans h
    by_cases ha : ∀ col row, i = .setCursor col row → cursorAddress s col row = .ok (cursorSum col row)
    · have := (exec_eq_planOutcome hl hi ha).symm.trans h
      injection this with this
      exact .inr (.inr (.inr ⟨hi, hl, this.symm⟩))
    · simp only [not_forall] at ha
      obtain ⟨col, row, rfl, hne⟩ := ha
      cases hc : cursorAddress s col row with
      | ok a => exact absurd (cursorAddress_ok hc ▸ hc) hne
      | error which =>
        simp only [exec, execSetCursor, whenConstructed_of hl, hc, raise, State.raised, Host.Outcome.next.injEq] at h
        exact .inr (.inr (.inl ⟨col, row, which, rfl, hl, hc, h.symm⟩))
  · cases i with
    | construct p =>
      have hl : s.life = .unconstructed := by
        cases hl : s.life with
        | unconstructed => rfl
        | constructed => simp [exec, execConstruct, hl] at h
      by_cases hp : PinsAccepted p
      · have := (execConstruct_accepted hl hp).symm.trans h
        injection this with this
        exact .inl ⟨p, rfl, hl, hp, this.symm⟩
      · obtain ⟨f, hf, he⟩ := execConstruct_rejected hl hp
        have := he.symm.trans h
        injection this with this
        exact .inr (.inl ⟨p, f, rfl, hl, hp, hf, this.symm⟩)
    | _ => simp [Instr.isConstruct] at hi

/-- What performing a plan adds: items that come from its steps, none of them failed but the last, which failed exactly
when the plan ended in an error; and bytes on the pins, all of the items' bytes when it did not. -/
theorem performFrom_grows (E : Nat → OpError) : ∀ (plan : List PlanStep) (j : Nat) (s : State),
    ∃ items bytes,
      (performFrom E plan j s).1.trace = s.trace ++ items ∧ (performFrom E plan j s).1.pins = s.pins ++ bytes ∧
      (∀ item ∈ items, (∃ bs a, item = .tx s.cfg.i2cAddr bs a ∧ .tx bs ∈ plan) ∨
        ∃ d, item = .delay d (delayMicros s.cfg d) ∧ .delay d ∈ plan) ∧
      (∀ item ∈ items.dropLast, item.failed = false) ∧
      ((∃ item, items.getLast? = some item ∧ item.failed = true) ↔ (performFrom E plan j s).2 ≠ none) ∧
      ((performFrom E plan j s).2 = none → bytes = pinStream items ∧
        items.map TraceItem.bytes = plan.filterMap fun
          | .tx bs => some bs
          | .delay _ => some []
          | .set _ => none) ∧
      (∀ b ∈ bytes, b ∈ pinStream items)
  | [], j, s => ⟨[], [], by simp [performFrom, pinStream]⟩
  | .set w :: rest, j, s => by
    obtain ⟨items, bytes, h1, h2, h3, h4, h5, h6, h7⟩ := performFrom_grows E rest j (s.write w).advance
    refine ⟨items, bytes, by simpa [performFrom] using h1, by simpa [performFrom] using h2, fun item hm => ?_, h4,
      by simpa [performFrom] using h5, by simpa [performFrom] using h6, h7⟩
    rcases h3 item hm with ⟨bs, a, e, hb⟩ | ⟨d, e, hd⟩
    · exact .inl ⟨bs, a, by simpa using e, by simp [hb]⟩
    · exact .inr ⟨d, by simpa using e, by simp [hd]⟩
  | .delay d :: rest, j, s => by
    obtain ⟨items, bytes, h1, h2, h3, h4, h5, h6, h7⟩ := performFrom_grows E rest j (s.wait d).advance
    have hlast : (∃ item, (TraceItem.delay d (delayMicros s.cfg d) :: items).getLast? = some item ∧
        item.failed = true) ↔ ∃ item, items.getLast? = some item ∧ item.failed = true := by
      cases items with
      | nil => simp [TraceItem.failed]
      | cons x xs => simp [List.getLast?_cons_cons]
    refine ⟨.delay d (delayMicros s.cfg d) :: items, bytes, by simpa [performFrom] using h1,
      by simpa [performFrom] using h2, fun item hm => ?_, ?_, by rw [hlast]; simpa [performFrom] using h5, ?_, ?_⟩
    · rcases List.mem_cons.1 hm with rfl | hm
      · exact .inr ⟨d, rfl, by simp⟩
      · rcases h3 item hm with ⟨bs, a, e, hb⟩ | ⟨d', e, hd⟩
        · exact .inl ⟨bs, a, by simpa using e, by simp [hb]⟩
        · exact .inr ⟨d', by simpa using e, by simp [hd]⟩
    · cases items with
      | nil => simp
      | cons x xs => simpa [TraceItem.failed] using h4
    · intro hn
      obtain ⟨e1, e2⟩ := h6 (by simpa [performFrom] using hn)
      exact ⟨by simpa [pinStream, TraceItem.bytes] using e1, by simpa [TraceItem.bytes] using e2⟩
    · simpa [pinStream, TraceItem.bytes] using h7
  | .tx bs :: rest, j, s => by
    cases ha : s.nextAnswer with
    | fail =>
      refine ⟨[.tx s.cfg.i2cAddr bs .fail], replyDelivers bs s.nextReply, by simp [performFrom, ha],
        by simp [performFrom, ha], by simp, by simp, by simp [performFrom, ha, TraceItem.failed],
        by simp [performFrom, ha], ?_⟩
      obtain ⟨n, hn⟩ := replyDelivers_sublist bs s.nextReply
      intro b hb
      simpa [pinStream, TraceItem.bytes] using List.mem_of_mem_take (hn ▸ hb)
    | ok =>
      obtain ⟨items, bytes, h1, h2, h3, h4, h5, h6, h7⟩ := performFrom_grows E rest (j + 1) (s.transact bs).advance
      have hd : replyDelivers bs s.nextReply = bs := replyDelivers_of_ok bs ha
      have hlast : (∃ item, (TraceItem.tx s.cfg.i2cAddr bs .ok :: items).getLast? = some item ∧ item.failed = true) ↔
          ∃ item, items.getLast? = some item ∧ item.failed = true := by
        cases items with
        | nil => simp [TraceItem.failed]
        | cons x xs => simp [List.getLast?_cons_cons]
      refine ⟨.tx s.cfg.i2cAddr bs .ok :: items, bs ++ bytes, by simpa [performFrom, ha] using h1,
        by simpa [performFrom, ha, hd] using h2, fun item hm => ?_, ?_,
        by rw [hlast]; simpa [performFrom, ha] using h5, ?_, ?_⟩
      · rcases List.mem_cons.1 hm with rfl | hm
        · exact .inl ⟨bs, .ok, rfl, by simp⟩
        · rcases h3 item hm with ⟨bs', a, e, hb⟩ | ⟨d', e, hd⟩
          · exact .inl ⟨bs', a, by simpa using e, by simp [hb]⟩
          · exact .inr ⟨d', by simpa using e, by simp [hd]⟩
      · cases items with
        | nil => simp
        | cons x xs => simpa [TraceItem.failed] using h4
      · intro hn
        obtain ⟨e1, e2⟩ := h6 (by simpa [performFrom, ha] using hn)
        exact ⟨by simp [pinStream, TraceItem.bytes, e1], by simpa [TraceItem.bytes] using e2⟩
      · intro b hb
        rcases List.mem_append.1 hb with hb | hb
        · exact by simp [pinStream, TraceItem.bytes, hb]
        · have := h7 b hb
          simp only [pinStream, List.flatMap_cons, List.mem_append]
          exact .inr this

/-- What no plan changes: the pin map, `LIFE`, `CNT`, the configuration, the host's requests and the reports
(10_state.md R24, R32, R37). -/
theorem perform_fixed (E : Nat → OpError) (plan : List PlanStep) (s : State) :
    (perform E plan s).1.reports = s.reports ∧ (perform E plan s).1.requests = s.requests ∧
      (perform E plan s).1.cfg = s.cfg ∧ (perform E plan s).1.life = s.life ∧ (perform E plan s).1.pos = s.pos ∧
      (perform E plan s).1.mask = s.mask ∧ (perform E plan s).1.cnt = s.cnt := by
  refine perform_keeps s (fun t => t.reports = s.reports ∧ t.requests = s.requests ∧ t.cfg = s.cfg ∧ t.life = s.life ∧
    t.pos = s.pos ∧ t.mask = s.mask ∧ t.cnt = s.cnt) E plan (fun _ _ h => by simpa using h) (fun _ h => by simpa using h)
    (fun w _ _ h => by cases w <;> simpa [State.write] using h) (fun _ _ _ h => by simpa using h)
    (fun _ _ _ h => by simpa using h) (by simp)

/-- `startOf` changes at most `CNT`. -/
theorem startOf_eq (s : State) (i : Instr) : startOf s i = s ∨ startOf s i = s.setCnt 0 := by
  cases i <;> simp [startOf]

/-- The transactions of an operation's plan: legal lengths and legal bytes, one byte only for `set_backlight`, two only
for `initialize` (30_encoding.md R90; 20_memory.md R55, R58). -/
theorem planOf_tx {i : Instr} {s : State} {bs : List Byte} (h : .tx bs ∈ planOf s i) :
    LegalLength bs.length ∧ bs.length ≤ frameBound s.cfg ∧
      (bs.length = 1 → ∃ level, i = .setBacklight level) ∧
      (bs.length = 2 → ∃ columns rows, i = .initDisplay columns rows) ∧
      (PinMapValid s.pos s.mask → ∀ b ∈ bs, ByteLegal s.mask b) := by
  have hframe : ∀ rs v, bs = frame s.mask s.lit rs v → LegalLength bs.length ∧ bs.length ≤ frameBound s.cfg ∧
      (bs.length = 1 → ∃ level, i = .setBacklight level) ∧
      (bs.length = 2 → ∃ columns rows, i = .initDisplay columns rows) ∧
      (PinMapValid s.pos s.mask → ∀ b ∈ bs, ByteLegal s.mask b) := by
    rintro rs v rfl
    simp only [frame_length]
    exact ⟨.inr (.inr ⟨by omega, by simp⟩), by simp [frameBound], by simp, by simp, fun hv => frame_legal hv _ _ _⟩
  have hbatch : ∀ buffer, bs ∈ (batch s buffer).2 → LegalLength bs.length ∧ bs.length ≤ frameBound s.cfg ∧
      (bs.length = 1 → ∃ level, i = .setBacklight level) ∧
      (bs.length = 2 → ∃ columns rows, i = .initDisplay columns rows) ∧
      (PinMapValid s.pos s.mask → ∀ b ∈ bs, ByteLegal s.mask b) := by
    intro buffer hb
    obtain ⟨part, hne, hle, rfl⟩ := batch_mem hb
    have := List.length_pos_of_ne_nil hne
    have := perTransaction_le s.cfg
    rw [flatMap_frame_length]
    refine ⟨.inr (.inr ⟨by omega, by simp⟩), by omega, by omega, by omega, fun hv b hm => ?_⟩
    obtain ⟨v, _, hv'⟩ := List.mem_flatMap.1 hm
    exact frame_legal hv _ _ _ _ hv'
  cases i with
  | construct => simp [planOf] at h
  | initDisplay columns rows =>
    have hpair : ∀ n, bs = pair s.mask s.lit false n → LegalLength bs.length ∧ bs.length ≤ frameBound s.cfg ∧
        (bs.length = 1 → ∃ level, Instr.initDisplay columns rows = .setBacklight level) ∧
        (bs.length = 2 → ∃ c r, Instr.initDisplay columns rows = .initDisplay c r) ∧
        (PinMapValid s.pos s.mask → ∀ b ∈ bs, ByteLegal s.mask b) := by
      rintro n rfl
      simp only [pair_length]
      exact ⟨.inr (.inl rfl), by simp [frameBound], by simp, fun _ => ⟨_, _, rfl⟩, fun hv => pair_legal hv _ _ _⟩
    simp only [planOf, initPlan, State.rawnib, State.cmd, List.mem_cons, List.not_mem_nil, or_false, reduceCtorEq,
      false_or, PlanStep.tx.injEq] at h
    rcases h with h | h | h | h | h | h | h | h
    · exact hpair _ h
    · exact hpair _ h
    · exact hpair _ h
    · exact hpair _ h
    · exact hframe _ _ h
    · exact hframe _ _ h
    · exact hframe _ _ h
    · exact hframe _ _ h
  | setBacklight level =>
    have hb : bs = [relatchByte s.mask level] := by simpa [planOf] using h
    subst hb
    exact ⟨.inl rfl, by simp [frameBound], fun _ => ⟨level, rfl⟩, by simp, fun hv => by
      simpa using relatchByte_legal hv level⟩
  | createGlyph slot bitmap =>
    simp only [planOf, State.cmd, List.mem_cons, PlanStep.tx.injEq, List.mem_map, exists_eq_right] at h
    rcases h with h | h
    · exact hframe _ _ h
    · exact hbatch _ h
  | writeBytes buffer =>
    simp only [planOf, List.mem_map, PlanStep.tx.injEq, exists_eq_right] at h
    exact hbatch _ h
  | _ =>
    simp only [planOf, State.cmd, State.data, List.mem_cons, List.not_mem_nil, or_false, reduceCtorEq, false_or,
      PlanStep.tx.injEq] at h
    exact hframe _ _ h

/-- Only `clear`, `home` and `initialize` contain delays (45_display_controller.md R158). -/
theorem planOf_delay {i : Instr} {s : State} {d : DelayParam} (h : .delay d ∈ planOf s i) : mayDelay i = true := by
  cases i <;> simp_all [planOf, State.cmd, State.data, mayDelay]

/-- Which registers a plan writes (10_state.md R26 to R29). -/
theorem planOf_set {i : Instr} {s : State} {w : FieldWrite} (h : .set w ∈ planOf s i) :
    match w with
    | .em _ => writesEm i = true
    | .dc _ => writesDc i = true
    | .bl _ => writesBl i = true
    | .cols _ => writesGeometry i = true
    | .rows _ => writesGeometry i = true := by
  cases i <;>
    simp only [planOf, initPlan, State.rawnib, State.cmd, State.data, List.mem_cons, List.not_mem_nil, or_false,
      reduceCtorEq, false_or, PlanStep.set.injEq, List.mem_map, and_false, exists_false] at h <;>
    (try (rcases h with h | h | h | h | h | h)) <;> (try subst h) <;>
    rfl

/-- The offset of data transaction `k` is an index of the buffer (60_exceptions.md R173). -/
theorem batch_offset_lt (s : State) (buffer : List Byte) :
    ∀ k, k < (batch s buffer).2.length → k * perTransaction s.cfg < buffer.length := by
  refine batch_induction s (fun bs txs => ∀ k, k < txs.length → k * perTransaction s.cfg < bs.length) (by simp)
    (fun bs hne _ k hk => ?_) (fun bs hlt ih k hk => ?_) buffer
  · have := List.length_pos_of_ne_nil hne
    obtain rfl : k = 0 := by simpa using hk
    simpa using this
  · cases k with
    | zero => simp; omega
    | succ k =>
      have := ih k (by simpa using hk)
      rw [List.length_drop] at this
      rw [Nat.add_mul]; omega

/-- The transactions of an operation's plan are as many as its error numbers allow (60_exceptions.md R172, R173). -/
theorem errorOf_mayReport {i : Instr} {s : State} {k : Nat} (hi : i.isConstruct = false)
    (h : k < (planTxs (planOf s i)).length) : mayReport i (.error (errorOf s i k)) = true := by
  cases i with
  | construct => simp [Instr.isConstruct] at hi
  | initDisplay => simpa [planOf, initPlan, planTxs, State.cmd, State.rawnib, errorOf, initError, mayReport] using h
  | createGlyph slot bitmap =>
    rw [planOf, cmd_cons_map_tx, planTxs_map_tx, List.length_cons] at h
    cases k with
    | zero => simp [errorOf, glyphTransportError, mayReport]
    | succ k =>
      have := batch_offset_lt s bitmap k (by omega)
      simp only [errorOf, glyphTransportError, mayReport, Nat.add_sub_cancel, decide_eq_true_eq]
      omega
  | writeBytes buffer =>
    rw [planOf, planTxs_map_tx] at h
    simpa [errorOf, dataTransportError, mayReport] using batch_offset_lt s buffer k h
  | _ => simp [errorOf, singleTransportError, mayReport]

end Sys2Proof.Machine
end

