-- ==== Sys2Proof/Laws/Expander.lean ====
section
/-! SUPPORT. What a display takes from one change of the pins (60_exceptions.md R189): nothing without a falling edge of
`en`, the lines' nibble on a steady one. The free value of an unsteady edge (log 25) occurs in neither. -/

namespace Sys2Proof.Machine

variable (m : PerSignal Byte) (before b : Byte) (later : Nat)

/-- `en` was low: no edge. -/
theorem latchedAt_low (h : before &&& m.en = 0) : latchedAt m before b later = [] := by
  simp [latchedAt, h]

/-- `en` is high after the byte: no falling edge. -/
theorem latchedAt_high (h : b &&& m.en ≠ 0) : latchedAt m before b later = [] := if_pos (.inr h)

/-- `en` falls and nothing else changes. -/
theorem latchedAt_steady (hen : m.en ≠ 0) (h : b &&& m.en = 0) :
    latchedAt m (b ||| m.en) b later = [(decide (b &&& m.rs ≠ 0), unnib m b)] := by
  have hb : (b ||| m.en) &&& m.en = m.en := by
    apply BitVec.eq_of_getLsbD_eq
    intro i _
    simp only [BitVec.getLsbD_and, BitVec.getLsbD_or]
    cases b.getLsbD i <;> cases m.en.getLsbD i <;> rfl
  have hedge : ¬((b ||| m.en) &&& m.en = 0 ∨ b &&& m.en ≠ 0) := by
    rw [hb]
    exact not_or.2 ⟨hen, fun hn => hn h⟩
  rw [latchedAt, if_neg hedge, if_pos rfl]

end Sys2Proof.Machine
end

