-- ==== Sys2Proof/Laws/PerInstr.lean ====
section
/-! SUPPORT. Facts about every operation as syntax, one lemma per constructor. Family `ImageShape`: the image of a
well-formed operation has at least the operand bytes of its format, and exactly so many unless it is `write_bytes`; its
OPSEL is not the reserved one (30_encoding.md R70, R86). -/

namespace Sys2Proof.Laws.ImageShape

/-- The family's statement. -/
def Statement (i : Instr) : Prop :=
  WellFormed i → i.opsel ≠ 15#4 ∧ operandCount i.opsel ≤ i.operands.length ∧
    (i.opsel ≠ 13#4 → i.operands.length = operandCount i.opsel)

theorem construct (pins : PinOperands) : Statement (.construct pins) := by
  intro _
  obtain ⟨rs, rw, en, bl, d0, d1, d2, d3⟩ := pins
  cases rw <;> cases bl <;> exact ⟨by simp [Instr.opsel], Nat.le_of_eq rfl, fun _ => rfl⟩

theorem initDisplay (columns rows : Byte) : Statement (.initDisplay columns rows) :=
  fun _ => ⟨by simp [Instr.opsel], Nat.le_of_eq rfl, fun _ => rfl⟩

theorem clear : Statement .clear := fun _ => ⟨by simp [Instr.opsel], Nat.le_of_eq rfl, fun _ => rfl⟩

theorem home : Statement .home := fun _ => ⟨by simp [Instr.opsel], Nat.le_of_eq rfl, fun _ => rfl⟩

theorem setCursor (col row : Byte) : Statement (.setCursor col row) := fun _ => ⟨by simp [Instr.opsel], Nat.le_of_eq rfl, fun _ => rfl⟩

theorem display (on : Bool) : Statement (.display on) := fun _ => ⟨by simp [Instr.opsel], Nat.le_of_eq rfl, fun _ => rfl⟩

theorem cursor (on : Bool) : Statement (.cursor on) := fun _ => ⟨by simp [Instr.opsel], Nat.le_of_eq rfl, fun _ => rfl⟩

theorem blink (on : Bool) : Statement (.blink on) := fun _ => ⟨by simp [Instr.opsel], Nat.le_of_eq rfl, fun _ => rfl⟩

theorem scroll (direction : ScrollDir) : Statement (.scroll direction) := fun _ => ⟨by simp [Instr.opsel], Nat.le_of_eq rfl, fun _ => rfl⟩

theorem entryMode (direction : EntryDir) (autoscroll : Bool) : Statement (.entryMode direction autoscroll) :=
  fun _ => ⟨by simp [Instr.opsel], Nat.le_of_eq rfl, fun _ => rfl⟩

theorem setBacklight (level : Byte) : Statement (.setBacklight level) := fun _ => ⟨by simp [Instr.opsel], Nat.le_of_eq rfl, fun _ => rfl⟩

theorem createGlyph (slot : Byte) (bitmap : List Byte) : Statement (.createGlyph slot bitmap) := by
  intro h
  have hl : bitmap.length = 8 := by simpa [WellFormed, Instr.wellFormed, glyphLen] using h
  have ho : (Instr.createGlyph slot bitmap).operands.length = 9 := by simp [Instr.operands, hl]
  exact ⟨by simp [Instr.opsel], by rw [ho]; exact Nat.le_of_eq rfl, fun _ => by rw [ho]; rfl⟩

theorem writeByte (byte : Byte) : Statement (.writeByte byte) := fun _ => ⟨by simp [Instr.opsel], Nat.le_of_eq rfl, fun _ => rfl⟩

theorem writeBytes (buffer : List Byte) : Statement (.writeBytes buffer) :=
  fun _ => ⟨by simp [Instr.opsel], by simp [Instr.opsel, operandCount], fun h => absurd rfl h⟩

theorem sendRawCommand (byte : Byte) : Statement (.sendRawCommand byte) :=
  fun _ => ⟨by simp [Instr.opsel], Nat.le_of_eq rfl, fun _ => rfl⟩

end Sys2Proof.Laws.ImageShape
end

