-- ==== Sys2Proof/Tests/Slice0.lean ====
section
/-! SUPPORT. Tests. Expected values come from spec/95_test_vectors.md (vectors V<n>, source properties S<n>) or are written
out from 30_encoding.md R70. The last part shows, for each obligation with hypotheses, a state and operands that meet
them. -/

open Sys2Proof Sys2Proof.Machine

namespace Sys2Proof.Tests

/-! ### A small state -/

/-- The test configuration of 95_test_vectors.md, with `FRAME_BOUND` = `room` + 4. -/
def config (room : Nat) : Config :=
  { frameRoom := room, i2cAddr := 0x27, tPowerup := 50000, tReset1 := 4500, tReset2 := 200, tReset3 := 200
    tSettle := 1600, scrollLeft := 0x18, scrollRight := 0x1C }

/-- `MAP_LOW`. -/
def mapLow : PinOperands :=
  { rs := 4, rw := some 5, en := 6, bl := some 7, d0 := 0, d1 := 1, d2 := 2, d3 := 3 }

/-- `MAP_SCR`. -/
def mapScr : PinOperands :=
  { rs := 7, rw := none, en := 0, bl := none, d0 := 3, d1 := 1, d2 := 6, d3 := 4 }

/-- V13's operands: `rs` and `en` share position 2. -/
def mapConflict : PinOperands :=
  { rs := 2, rw := none, en := 2, bl := some 3, d0 := 4, d1 := 5, d2 := 6, d3 := 7 }

/-- V14's operands: `bl` has position 8. -/
def mapRange : PinOperands :=
  { rs := 0, rw := none, en := 2, bl := some 8, d0 := 4, d1 := 5, d2 := 6, d3 := 7 }

/-- A block before construction. -/
def fresh : State := State.resetWith (config 28)

/-- A block constructed with these pins, and what the transport will answer. -/
def block (room : Nat) (pins : PinOperands) (replies : List Reply) : State :=
  { (State.resetWith (config room)).constructed pins with replies := replies }

/-- `PRESET_DEFAULT`, `FRAME_BOUND` = 32, one `ok`. -/
def one : State := block 28 presetDefault [.ok]

/-- The same with geometry. -/
def sized (cols rows : Byte) : State := { one with cols := cols, rows := rows }

/-- Something of the state after an operation. -/
def after {α : Type} (f : State → α) (i : Instr) (s : State) : Option α :=
  match exec i s with
  | .next t => some (f t)
  | _ => none

/-- The bytes of the transactions and the outcomes after an operation. -/
def seen (i : Instr) (s : State) : Option (List (List Byte) × List Report) :=
  after (fun t => (t.trace.map TraceItem.bytes, t.reports)) i s

/-! ### WellFormed -/

/-- A glyph of seven rows is no operand of F-GLYPH (R70, `GLYPH_LEN` = 8). -/
theorem test_wellFormed_refuses_short_glyph : ¬ WellFormed (.createGlyph 0 [0, 0, 0, 0, 0, 0, 0]) := by decide

theorem test_wellFormed_accepts_glyph : WellFormed (.createGlyph 255 [0, 0, 0, 0, 0, 0, 0, 0]) := by decide

/-! ### Decode: one image per constructor, from R70's table -/

theorem test_decode_construct : decode [0x00, 2, 1, 255, 4, 0, 0, 3, 5, 6, 7] =
    .ok (.construct { rs := 2, rw := some 255, en := 4, bl := none, d0 := 3, d1 := 5, d2 := 6, d3 := 7 }) := by rfl
theorem test_decode_initialize : decode [0x01, 20, 4] = .ok (.initDisplay 20 4) := by rfl
theorem test_decode_clear : decode [0x02] = .ok .clear := by rfl
theorem test_decode_home : decode [0x03] = .ok .home := by rfl
theorem test_decode_set_cursor : decode [0x04, 2, 1] = .ok (.setCursor 2 1) := by rfl
theorem test_decode_display : decode [0x05, 1] = .ok (.display true) := by rfl
theorem test_decode_cursor : decode [0x06, 0] = .ok (.cursor false) := by rfl
theorem test_decode_blink : decode [0x07, 1] = .ok (.blink true) := by rfl
theorem test_decode_scroll : decode [0x08, 1] = .ok (.scroll .right) := by rfl
theorem test_decode_entry_mode : decode [0x09, 1, 0] = .ok (.entryMode .ltr false) := by rfl
theorem test_decode_set_backlight : decode [0x0A, 255] = .ok (.setBacklight 255) := by rfl
theorem test_decode_create_glyph : decode [0x0B, 9, 0x00, 0x0A, 0x1F, 0x1F, 0x0E, 0x04, 0x00, 0x01] =
    .ok (.createGlyph 9 [0x00, 0x0A, 0x1F, 0x1F, 0x0E, 0x04, 0x00, 0x01]) := by rfl
theorem test_decode_write_byte : decode [0x0C, 0x48] = .ok (.writeByte 0x48) := by rfl
theorem test_decode_write_bytes : decode [0x0D, 0x48, 0x69] = .ok (.writeBytes [0x48, 0x69]) := by rfl
theorem test_decode_send_raw_command : decode [0x0E, 0x0F] = .ok (.sendRawCommand 0x0F) := by rfl

theorem test_decode_refuses : decode [0x0F, 1, 2] = .error .reservedOpsel ∧ decode [] = .error .emptyImage ∧
    decode [0x02, 0] = .error .wrongOperandCount ∧ decode [0x05, 2] = .error .notOneBit ∧
    decode [0x00, 0, 2, 0, 2, 1, 3, 4, 5, 6, 7] = .error .notAnOptionalPin := ⟨rfl, rfl, rfl, rfl, rfl⟩

/-- The table's mask covers four bits of the OPSEL byte: the rest is not read (log 2). -/
theorem test_decode_reads_four_bits : decode [0xF2] = .ok .clear := by rfl

/-- The table gives no operand bits, so the operand bytes are zeros. -/
theorem test_decodeTableWord : decodeTableWord 8 0x04 = some (.setCursor 0 0) ∧
    decodeTableWord 24 0x010204 = some (.setCursor 2 1) ∧ decodeTableWord 8 0x0F = none := by decide

/-- From reset the host's word is what the next step performs (log 20). -/
theorem test_withFetchWord_runs : ∃ t, step (State.reset.withFetchWord 8 0x02) = .next t := ⟨_, rfl⟩

theorem test_withFetchWord_construct : ∃ t, step (State.reset.withFetchWord 8 0x00) = .next t := ⟨_, rfl⟩

/-! ### One step of each operation -/

/-- V12. -/
theorem test_construct : after (fun t => (t.life, t.mask, t.em, t.trace)) (.construct mapScr) fresh =
    some (.constructed, ⟨0x80, 0x00, 0x01, 0x00, 0x08, 0x02, 0x40, 0x10⟩, 0b10, []) := by decide

/-- V17: range faults are reported in preference. -/
theorem test_construct_prefers_range : pinFaults (positionOperands
    { rs := 9, rw := none, en := 9, bl := some 3, d0 := 4, d1 := 5, d2 := 6, d3 := 7 }) =
    [.range .rs, .range .en] := by decide

/-- V36. -/
theorem test_initialize :
    seen (.initDisplay 16 2) { block 28 presetDefault (List.replicate 8 .ok) with bl := 1 } =
    some ([[], [0x3C, 0x38], [], [0x3C, 0x38], [], [0x3C, 0x38], [], [0x2C, 0x28], [0x2C, 0x28, 0x8C, 0x88],
      [0x0C, 0x08, 0xCC, 0xC8], [0x0C, 0x08, 0x1C, 0x18], [], [0x0C, 0x08, 0x6C, 0x68]], [.done]) := by decide

/-- V38. -/
theorem test_initialize_failure :
    after (fun t => (t.trace.length, t.reports, t.em, t.dc, t.cols, t.rows)) (.initDisplay 16 2)
      (block 28 presetDefault [.ok, .ok, .fail 1]) =
    some (6, [.error (.initFailure 2)], 0b10, 0b000, 16, 2) := by decide

/-- V42. -/
theorem test_clear : after (·.trace) .clear one =
    some [.tx 0x27 [0x04, 0x00, 0x14, 0x10] .ok, .delay .settle 1600] := by decide

/-- V42: no delay after a failure. -/
theorem test_clear_failure : after (fun t => (t.trace, t.pins)) .clear (block 28 presetDefault [.fail 1]) =
    some ([.tx 0x27 [0x04, 0x00, 0x14, 0x10] .fail], [0x04]) := by decide

/-- V42. -/
theorem test_home : after (·.trace) .home one =
    some [.tx 0x27 [0x04, 0x00, 0x24, 0x20] .ok, .delay .settle 1600] := by decide

/-- S5. -/
theorem test_set_cursor : seen (.setCursor 2 1) (sized 20 4) = some ([[0xC4, 0xC0, 0x24, 0x20]], [.done]) := by decide

/-- V51: the row is checked first, and the transport is not asked. -/
theorem test_set_cursor_row_first : after (fun t => (t.reports, t.trace, t.replies)) (.setCursor 99 9) (sized 20 4) =
    some ([.error (.invalidArgument .row)], [], [.ok]) := by decide

/-- V22: the other flags survive. -/
theorem test_display : after (fun t => (t.dc, t.pins)) (.display false) { one with dc := 0b111 } =
    some (0b011, [0x04, 0x00, 0xB4, 0xB0]) := by decide

/-- V25. -/
theorem test_cursor : after (fun t => (t.dc, t.pins)) (.cursor true) one =
    some (0b010, [0x04, 0x00, 0xA4, 0xA0]) := by decide

/-- V24: the flag stays written when the transaction fails. -/
theorem test_blink_failure : after (fun t => (t.dc, t.pins, t.reports)) (.blink true)
    { block 28 presetDefault [.fail 0] with dc := 0b100 } =
    some (0b101, [], [.error (.transport 0)]) := by decide

/-- V44. -/
theorem test_scroll : seen (.scroll .right) one = some ([[0x14, 0x10, 0xC4, 0xC0]], [.done]) := by decide

/-- V21. -/
theorem test_entry_mode : after (fun t => (t.em, t.pins)) (.entryMode .rtl true) one =
    some (0b01, [0x04, 0x00, 0x54, 0x50]) := by decide

/-- V45. -/
theorem test_set_backlight : after (fun t => (t.bl, t.pins)) (.setBacklight 255) one = some (255, [0x09]) := by decide

/-- V45: no backlight signal. -/
theorem test_set_backlight_absent : after (fun t => (t.bl, t.pins)) (.setBacklight 255) (block 28 mapScr [.ok]) =
    some (255, [0x80]) := by decide

/-- P3, operation 4, `FRAME_BOUND` = 16. -/
theorem test_create_glyph :
    seen (.createGlyph 9 [0x00, 0x0A, 0x1F, 0x1F, 0x0E, 0x04, 0x00, 0x00])
      { block 12 mapLow [.ok, .ok, .ok] with bl := 1 } =
    some ([[0xC4, 0x84, 0xC8, 0x88],
      [0xD0, 0x90, 0xD0, 0x90, 0xD0, 0x90, 0xDA, 0x9A, 0xD1, 0x91, 0xDF, 0x9F, 0xD1, 0x91, 0xDF, 0x9F],
      [0xD0, 0x90, 0xDE, 0x9E, 0xD0, 0x90, 0xD4, 0x94, 0xD0, 0x90, 0xD0, 0x90, 0xD0, 0x90, 0xD0, 0x90]],
      [.done]) := by decide

/-- V43: the second data transaction fails. -/
theorem test_create_glyph_failure :
    after (·.reports) (.createGlyph 9 [0x00, 0x0A, 0x1F, 0x1F, 0x0E, 0x04, 0x00, 0x00])
      (block 12 presetDefault [.ok, .ok, .fail 3]) = some [.error (.transport 4)] := by decide

/-- V28. -/
theorem test_write_byte : seen (.writeByte 0x48) one = some ([[0x45, 0x41, 0x85, 0x81]], [.count 1]) := by decide

/-- V31: `FRAME_BOUND` = 30. -/
theorem test_write_bytes_lengths :
    after (fun t => (t.trace.map (·.bytes.length), t.reports))
      (.writeBytes [0x41, 0x42, 0x43, 0x44, 0x45, 0x46, 0x47, 0x48, 0x49]) (block 26 presetDefault [.ok, .ok]) =
    some ([28, 8], [.count 9]) := by decide

/-- V34: `FRAME_BOUND` = 16, the third transaction fails. -/
theorem test_write_bytes_failure :
    after (·.reports) (.writeBytes [0x41, 0x42, 0x43, 0x44, 0x45, 0x46, 0x47, 0x48, 0x49])
      (block 12 presetDefault [.ok, .ok, .fail 0]) = some [.error (.transport 8)] := by decide

/-- V27: no flag follows. -/
theorem test_send_raw_command : after (fun t => (t.dc, t.trace)) (.sendRawCommand 0x0F) { one with dc := 0b100 } =
    some (0b100, [.tx 0x27 [0x04, 0x00, 0xF4, 0xF0] .ok]) := by decide

/-- V19, V53. -/
theorem test_lifecycle : exec (.construct presetDefault) one = .refused .alreadyConstructed ∧
    exec .clear fresh = .refused .notConstructed := ⟨rfl, rfl⟩

/-- V8. -/
theorem test_unnib : unnib one.mask 0x85 = 0x8 ∧ unnib (block 28 mapScr []).mask 0x92 = 0xA := by decide

/-! ### Witnesses: the hypotheses of the obligations can be met -/

theorem accepted_presetDefault : PinsAccepted presetDefault := (pinFaults_eq_nil _).1 (by decide)

theorem accepted_mapLow : PinsAccepted mapLow := (pinFaults_eq_nil _).1 (by decide)

theorem accepted_mapScr : PinsAccepted mapScr := (pinFaults_eq_nil _).1 (by decide)

theorem rejected_mapConflict : ¬ PinsAccepted mapConflict := fun h => absurd ((pinFaults_eq_nil _).2 h) (by decide)

theorem rejected_mapRange : ¬ PinsAccepted mapRange := fun h => absurd ((pinFaults_eq_nil _).2 h) (by decide)

theorem valid_one : PinMapValid one.pos one.mask := constructed_valid (State.resetWith (config 28)) accepted_presetDefault

theorem valid_low : PinMapValid (block 28 mapLow []).pos (block 28 mapLow []).mask := constructed_valid (State.resetWith (config 28)) accepted_mapLow

theorem valid_scr : PinMapValid (block 28 mapScr []).pos (block 28 mapScr []).mask := constructed_valid (State.resetWith (config 28)) accepted_mapScr

/-- A constructed block that has emitted nothing meets the invariant. -/
theorem inv_one : one.Inv where
  idle := ⟨rfl, rfl⟩
  fresh h := nomatch h
  pinMap _ := valid_one
  traceLegal _ h := nomatch h
  pinsLegal _ h := nomatch h
  stream _ := rfl

theorem witness_FrameRoundTrip : ∃ pos m, PinMapValid pos m := ⟨_, _, valid_scr⟩

theorem witness_FramePulsesEnableTwice : ∃ pos m, PinMapValid pos m := ⟨_, _, valid_low⟩

theorem witness_FrameControlBitsHoldSteady :
    ∃ pos m, PinMapValid pos m ∧ (0x4D : Byte) ∈ frame m true true 0x48 := ⟨_, _, valid_one, by decide⟩

theorem witness_ReadWriteLineIsNeverAsserted :
    ∃ pos m, PinMapValid pos m ∧ pos.rw = some 5 ∧ m.rw = 0x20 ∧ (0xD4 : Byte) ∈ frame m true true 0x48 ∧
      (0x83 : Byte) ∈ pair m true false 0x3 ∧ relatchByte m 1 = 0x90 := ⟨_, _, valid_low, by decide⟩

theorem witness_UnassignedBitsStayZero :
    ∃ pos m, PinMapValid pos m ∧ (∀ t, pos.get t ≠ some 2) ∧ (0x93 : Byte) ∈ frame m true true 0xA5 ∧
      (0x92 : Byte) ∈ pair m false true 0xA ∧ relatchByte m 255 = 0x80 :=
  ⟨_, _, valid_scr, by intro t; cases t <;> decide, by decide, by decide, by decide⟩

theorem witness_FallingEdgesReadTheFrames : ∃ pos m, PinMapValid pos m := ⟨_, _, valid_one⟩

theorem witness_TransactionIsRecordedAndDelivered :
    one.nextAnswer = .ok ∧ one.replies = .ok :: [] ∧
    (block 28 mapLow [.fail 2]).nextAnswer = .fail ∧ (block 28 mapLow [.fail 2]).replies = .fail 2 :: [] := by decide

theorem witness_ConstructBuildsThePinMap : fresh.life = .unconstructed ∧ PinsAccepted mapScr := ⟨rfl, accepted_mapScr⟩

/-- Both kinds of fault. -/
theorem witness_ConstructRejectsBadPins :
    fresh.life = .unconstructed ∧ ¬ PinsAccepted mapConflict ∧ ¬ PinsAccepted mapRange :=
  ⟨rfl, rejected_mapConflict, rejected_mapRange⟩

/-- Both clauses. -/
theorem witness_MasksAreDisjointPowersOfTwo :
    fresh.life = .unconstructed ∧ (∃ t, exec (.construct mapLow) fresh = .next t) ∧ PinsAccepted mapLow ∧
      (∃ t, exec (.construct mapRange) fresh = .next t) ∧ ¬ PinsAccepted mapRange :=
  ⟨rfl, ⟨_, rfl⟩, accepted_mapLow, ⟨_, rfl⟩, rejected_mapRange⟩

theorem witness_ConstructDefaultSucceeds : fresh.life = .unconstructed := rfl

theorem witness_ConfigurationErrorWritesNothing :
    ∃ t f, exec (.construct mapConflict) fresh = .next t ∧ t.reports = fresh.reports ++ [.error (.configuration f)] ∧
      PinsAccepted presetDefault := ⟨_, _, rfl, rfl, accepted_presetDefault⟩

theorem witness_LifecycleRefusals :
    one.life = .constructed ∧ fresh.life = .unconstructed ∧ Instr.clear.isConstruct = false := ⟨rfl, rfl, rfl⟩

theorem witness_DisplaySetsItsFlagAndSends : one.life = .constructed := rfl

theorem witness_CursorSetsItsFlagAndSends : one.life = .constructed := rfl

theorem witness_BlinkSetsItsFlagAndSends :
    one.life = .constructed ∧ one.dc.getLsbD 0 = false ∧
      ∃ t u, exec (.blink true) one = .next t ∧ exec (.blink false) t = .next u := ⟨rfl, rfl, _, _, rfl, rfl⟩

theorem witness_EntryModeSetsBothFlagsAndSends : one.life = .constructed := rfl

theorem witness_RepeatedToggleStillSends :
    ∃ t u, exec (.cursor true) one = .next t ∧ exec (.cursor true) t = .next u := ⟨_, _, rfl, rfl⟩

theorem witness_PseudoOperationsKeepTheOtherFlag : one.life = .constructed := rfl

theorem witness_SendRawCommandSendsTheByte : one.life = .constructed := rfl

theorem witness_WriteByteSendsDataAndReturnsOne : one.life = .constructed := rfl

theorem witness_WriteByteIsOneElementWriteBytes : one.cnt = 0 := rfl

/-- A buffer of nine bytes under `FRAME_BOUND` = 16: a full transaction that is not the last, and the last. -/
theorem witness_BatchFillsTransactions :
    ∃ x y, x ∈ (batch (block 12 mapLow []) [1, 2, 3, 4, 5, 6, 7, 8, 9]).2.dropLast ∧
      y ∈ (batch (block 12 mapLow []) [1, 2, 3, 4, 5, 6, 7, 8, 9]).2 ∧ x.length = 16 ∧ y.length = 4 :=
  ⟨_, [0x50, 0x10, 0x59, 0x19], List.mem_cons_self, by decide, by decide, by decide⟩

/-- The first transaction and the last. -/
theorem witness_BatchCutsEveryKInstructions :
    ∃ x, (batch (block 12 mapLow []) [1, 2, 3, 4, 5, 6, 7, 8, 9]).2[0]? = some x ∧
      (batch (block 12 mapLow []) [1, 2, 3, 4, 5, 6, 7, 8, 9]).2[2]? = some [0x50, 0x10, 0x59, 0x19] :=
  ⟨_, rfl, by decide⟩

theorem witness_WriteBytesSendsTheBuffer :
    ∃ s : State, s.life = .constructed ∧ s.replies = List.replicate (batch s [1, 2, 3, 4, 5]).2.length .ok ++ [.ok] :=
  ⟨block 12 mapLow [.ok, .ok, .ok], by decide⟩

/-- Failure of the first transaction and of the last. -/
theorem witness_WriteBytesStopsAtAFailure :
    (∃ (s : State) (x : List Byte), s.life = .constructed ∧ (batch s [1, 2, 3, 4, 5]).2[0]? = some x ∧
      s.replies = List.replicate 0 .ok ++ .fail 3 :: []) ∧
    (∃ (s : State) (x : List Byte), s.life = .constructed ∧ (batch s [1, 2, 3, 4, 5]).2[1]? = some x ∧
      s.replies = List.replicate 1 .ok ++ .fail 3 :: []) :=
  ⟨⟨block 12 mapLow [.fail 3], _, rfl, rfl, rfl⟩, ⟨block 12 mapLow [.ok, .fail 3], _, rfl, rfl, rfl⟩⟩

theorem witness_WriteBytesOfNothingEmitsNothing : one.life = .constructed := rfl

theorem witness_WrittenTextIsReadBack :
    one.Inv ∧ one.life = .constructed ∧ (∀ r ∈ one.replies, r = .ok) ∧ [(0x48 : Byte)].length ≤ one.replies.length :=
  ⟨inv_one, rfl, by decide, by decide⟩

theorem witness_InitializeRunsTheHandshake :
    ∃ s : State, s.life = .constructed ∧ s.replies = List.replicate 8 .ok ++ [] :=
  ⟨block 28 mapScr (List.replicate 8 .ok), by decide⟩

/-- Each of the eight transactions. -/
theorem witness_InitializeStopsAtAFailure : ∀ k : Fin 8,
    ∃ s : State, s.life = .constructed ∧ k.val < 8 ∧ s.replies = List.replicate k.val .ok ++ .fail 1 :: [] :=
  fun k => ⟨block 28 mapScr (List.replicate k.val .ok ++ .fail 1 :: []), rfl, k.isLt, rfl⟩

theorem witness_ClearSendsAndSettles : one.life = .constructed := rfl

theorem witness_HomeSendsAndSettles : one.life = .constructed := rfl

/-- Row 4, row `ROWS`, column `COLS`, and the first address above 0x7F (V41). -/
theorem witness_SetCursorRejectsOutsideTheGeometry :
    (sized 80 255).life = .constructed ∧ 3 < (4 : Byte).toNat ∧
    ((sized 16 2).rows.toNat ≤ (2 : Byte).toNat ∧ (2 : Byte).toNat ≤ 3) ∧
    ((3 : Byte).toNat ≤ 3 ∧ (3 : Byte).toNat < (sized 20 4).rows.toNat ∧
      (sized 20 4).cols.toNat ≤ (20 : Byte).toNat) ∧
    (3 : Byte).toNat < (sized 80 4).rows.toNat ∧
    0x7F < [0x00, 0x40, 0x14, 0x54].getD (3 : Byte).toNat 0 + (44 : Byte).toNat := by decide

/-- The last address, 0x7F (V41). -/
theorem witness_SetCursorSendsTheAddress :
    (sized 80 4).life = .constructed ∧ (3 : Byte).toNat ≤ 3 ∧ (3 : Byte).toNat < (sized 80 4).rows.toNat ∧
    (43 : Byte).toNat < (sized 80 4).cols.toNat ∧
    0x7F = [0x00, 0x40, 0x14, 0x54].getD (3 : Byte).toNat 0 + (43 : Byte).toNat ∧ 0x7F ≤ 0x7F := by decide

theorem witness_InvalidArgumentChangesNothing :
    ∃ t, exec (.setCursor 20 0) (sized 20 4) = .next t ∧
      t.reports = (sized 20 4).reports ++ [.error (.invalidArgument .col)] := ⟨_, rfl, by decide⟩

theorem witness_CreateGlyphProgramsTheSlot :
    ∃ s : State, s.life = .constructed ∧ WellFormed (.createGlyph 255 [1, 2, 3, 4, 5, 6, 7, 8]) ∧
      s.replies = List.replicate ((batch s [1, 2, 3, 4, 5, 6, 7, 8]).2.length + 1) .ok ++ [] :=
  ⟨block 12 mapLow [.ok, .ok, .ok], by decide⟩

/-- Failure of the address command, of the first data transaction and of the last. -/
theorem witness_CreateGlyphStopsAtAFailure : ∀ j : Fin 3,
    ∃ (s : State) (x : List Byte), s.life = .constructed ∧
      (frame s.mask s.lit false (0x40#8 ||| (((9 : Byte) &&& 0x07#8) <<< 3)) ::
        (batch s [1, 2, 3, 4, 5, 6, 7, 8]).2)[j.val]? = some x ∧
      s.replies = List.replicate j.val .ok ++ .fail 2 :: [] := fun j => by
  refine ⟨block 12 mapLow (List.replicate j.val .ok ++ .fail 2 :: []), ?_⟩
  match j with
  | 0 => exact ⟨_, rfl, rfl, rfl⟩
  | 1 => exact ⟨_, rfl, rfl, rfl⟩
  | 2 => exact ⟨_, rfl, rfl, rfl⟩

theorem witness_ScrollSendsItsParameter : one.life = .constructed := rfl

theorem witness_SetBacklightSendsTheRelatchByte : one.life = .constructed := rfl

theorem witness_BacklightPinFollowsAtOnce :
    ∃ s : State, s.life = .constructed ∧ PinMapValid s.pos s.mask ∧ s.nextAnswer = .ok ∧ s.latch &&& s.mask.en = 0 :=
  ⟨{ one with pins := [0x85, 0x81] }, rfl, valid_one, by decide, by decide⟩

/-- A step that performs an operation. -/
theorem witness_StepKeepsTheInvariant :
    ∃ s t : State, s.Inv ∧ s.requests ≠ [] ∧ step s = .next t :=
  ⟨one.placeRequest [0x02], _, ⟨inv_one.idle, inv_one.fresh, inv_one.pinMap, inv_one.traceLegal, inv_one.pinsLegal,
    inv_one.stream⟩, by decide, rfl⟩

/-- Both kinds of operation. -/
theorem witness_RegistersChangeOnlyByTheirOperations :
    (∃ t, exec .home one = .next t) ∧ (∃ t, exec (.construct mapScr) fresh = .next t) := ⟨⟨_, rfl⟩, ⟨_, rfl⟩⟩

theorem witness_EveryOperationReportsAnAllowedOutcome : ∃ t, exec (.writeBytes [1, 2]) one = .next t := ⟨_, rfl⟩

/-- With a failure and without. -/
theorem witness_ErrorsArePrecise :
    (∃ t, exec (.writeBytes [1, 2]) one = .next t) ∧
      ∃ t, exec (.writeBytes [1, 2]) (block 28 mapLow [.fail 5]) = .next t := ⟨⟨_, rfl⟩, ⟨_, rfl⟩⟩

theorem witness_TransactionLengthsTellTheirOperation :
    (∃ t, exec (.setBacklight 1) one = .next t) ∧ ∃ t, exec (.initDisplay 16 2) one = .next t := ⟨⟨_, rfl⟩, ⟨_, rfl⟩⟩

theorem witness_FrameBoundIsInvisibleToTheDisplay :
    one.life = .constructed ∧ (Instr.writeBytes [0x48]).isConstruct = false ∧ (∀ r ∈ one.replies, r = .ok) ∧
      maxTransactions (.writeBytes [0x48]) ≤ one.replies.length := ⟨rfl, rfl, by decide, by decide⟩

theorem witness_ConstructedBlockNeverStops : ({ one with requests := [[0x02], [0x0D]] } : State).Ready := by
  refine ⟨rfl, fun image h => ?_⟩
  rcases List.mem_cons.1 h with rfl | h
  · exact ⟨.clear, rfl, rfl⟩
  · obtain rfl : image = [0x0D] := by simpa using h
    exact ⟨.writeBytes [], rfl, rfl⟩

theorem witness_ProgramsRunFromPowerOn :
    PinsAccepted presetDefault ∧ ∀ i ∈ [Instr.initDisplay 16 2, .writeBytes [0x48, 0x69]],
      WellFormed i ∧ i.isConstruct = false := ⟨accepted_presetDefault, by decide⟩

theorem witness_StepRunsTheDecodedOperation :
    ∃ (s : State) (rest : List (List Byte)), s.requests = [0x0A, 255] :: rest ∧
      decode [0x0A, 255] = .ok (.setBacklight 255) := ⟨{ one with requests := [[0x0A, 255]] }, [], rfl, rfl⟩

theorem witness_StepWithoutRequestWaits : one.requests = [] := rfl

theorem witness_ReservedOpselIsRefused :
    ∃ s : State, (0xFF : Byte).toNat % 16 = 15 ∧ s.requests = [0xFF, 1] :: [] :=
  ⟨{ one with requests := [[0xFF, 1]] }, by decide⟩

theorem witness_DecodeOfEncode : WellFormed (.createGlyph 9 [0, 1, 2, 3, 4, 5, 6, 7]) := rfl

theorem witness_EncodeOfDecode : decode (0xF4 :: [2, 1]) = .ok (.setCursor 2 1) := rfl

end Sys2Proof.Tests
end

section
/-! The statements on the encoder: 30_encoding.md R76 and R77 (the two halves of an output byte), R79 (the four bytes of
a frame) and R80 (the read/write line). -/

namespace Sys2Proof.Machine

/-! ### The two halves of an output byte, read off the registers -/

/-- `nib` in the spec's own terms (30_encoding.md R76). -/
theorem nib_eq (m : PerSignal Byte) (n : Nibble) :
    nib m n = (if n.getLsbD 0 then m.d0 else 0) ||| (if n.getLsbD 1 then m.d1 else 0) |||
      (if n.getLsbD 2 then m.d2 else 0) ||| (if n.getLsbD 3 then m.d3 else 0) := rfl

theorem nib_zero (m : PerSignal Byte) : nib m 0x0 = 0x00 := by simp [nib_eq]

theorem nib_allOnes (m : PerSignal Byte) : nib m 0xF = m.d0 ||| m.d1 ||| m.d2 ||| m.d3 := rfl

/-- `base` in the spec's own terms: the backlight predicate is `ST.BL > 0` (30_encoding.md R77). -/
theorem base_lit_eq (s : State) (rs : Bool) :
    base s.mask s.lit rs = (if 0 < s.bl.toNat then s.mask.bl else 0) ||| (if rs then s.mask.rs else 0) := by
  simp only [base, maskIf, State.lit, isLit, decide_eq_true_eq]

/-- Without a backlight signal, whose mask is then 0, `base` is the register-select term alone (30_encoding.md R77). -/
theorem base_of_bl_zero {m : PerSignal Byte} (h : m.bl = 0x00) (lit rs : Bool) :
    base m lit rs = if rs then m.rs else 0 := by
  simp [base, maskIf, h]

/-! ### The nibbles of an instruction byte -/

theorem highNibble_getLsbD (v : Byte) {i : Nat} (hi : i < 4) : (highNibble v).getLsbD i = v.getLsbD (4 + i) := by
  simp [highNibble, hi]

theorem lowNibble_getLsbD (v : Byte) {i : Nat} (hi : i < 4) : (lowNibble v).getLsbD i = v.getLsbD i := by
  simp [lowNibble, hi]

/-- The high nibble is shown by bits 4 to 7 of the instruction byte (30_encoding.md R76, R79). -/
theorem nib_highNibble (m : PerSignal Byte) (v : Byte) :
    nib m (highNibble v) = (if v.getLsbD 4 then m.d0 else 0) ||| (if v.getLsbD 5 then m.d1 else 0) |||
      (if v.getLsbD 6 then m.d2 else 0) ||| (if v.getLsbD 7 then m.d3 else 0) := by
  simp (disch := decide) only [nib_eq, highNibble_getLsbD]

/-- The low nibble is shown by bits 0 to 3 of the instruction byte (30_encoding.md R76, R79). -/
theorem nib_lowNibble (m : PerSignal Byte) (v : Byte) :
    nib m (lowNibble v) = (if v.getLsbD 0 then m.d0 else 0) ||| (if v.getLsbD 1 then m.d1 else 0) |||
      (if v.getLsbD 2 then m.d2 else 0) ||| (if v.getLsbD 3 then m.d3 else 0) := by
  simp (disch := decide) only [nib_eq, lowNibble_getLsbD]

/-! ### The plan steps of one instruction -/

theorem cmd_eq (s : State) (v : Byte) : s.cmd v = .tx (frame s.mask s.lit false v) := rfl

theorem data_eq (s : State) (v : Byte) : s.data v = .tx (frame s.mask s.lit true v) := rfl

/-! ### The read/write line -/

section
variable (m : PerSignal Byte) (x : Byte)

@[simp] theorem nib_with_rw (n : Nibble) : nib { m with rw := x } n = nib m n := rfl

@[simp] theorem base_with_rw (lit rs : Bool) : base { m with rw := x } lit rs = base m lit rs := rfl

@[simp] theorem pair_with_rw (lit rs : Bool) (n : Nibble) : pair { m with rw := x } lit rs n = pair m lit rs n := by
  simp [pair]

@[simp] theorem frame_with_rw (lit rs : Bool) (v : Byte) : frame { m with rw := x } lit rs v = frame m lit rs v := by
  simp [frame]

@[simp] theorem relatchByte_with_rw (level : Byte) : relatchByte { m with rw := x } level = relatchByte m level := by
  simp [relatchByte]

end

/-- Every byte of a frame, of a pair and of a re-latch is legal under a valid pin map (20_memory.md R58). -/
theorem emitted_legal {pos : PerSignal (Option (Fin 8))} {m : PerSignal Byte} (h : PinMapValid pos m)
    {lit rs : Bool} {n : Nibble} {v level b : Byte}
    (hb : b ∈ frame m lit rs v ∨ b ∈ pair m lit rs n ∨ b = relatchByte m level) : ByteLegal m b := by
  obtain hb | hb | rfl := hb
  · exact frame_legal h lit rs v b hb
  · exact pair_legal h lit rs n b hb
  · exact relatchByte_legal h level

/-! ### The obligations -/

/-- Settles O1: the equations of `nib` and `base`, with their values at no and at all data lines and without a
backlight. -/
theorem nibAndBaseShowTheirSignals : Obligations.NibAndBaseShowTheirSignals :=
  ⟨nib_eq, fun m => ⟨nib_zero m, nib_allOnes m⟩, base_lit_eq, fun _ lit rs h => base_of_bl_zero h lit rs⟩

/-- Settles O2: each byte of `frame_eq` is `base ||| nib`, whose two halves read the backlight level and the bits of
`v`. -/
theorem frameIsTheFourByteContract : Obligations.FrameIsTheFourByteContract := by
  refine ⟨fun s rs v => ?_, fun s v => ⟨cmd_eq s v, data_eq s v⟩, by decide⟩
  simp only [frame_eq, base_lit_eq, nib_highNibble, nib_lowNibble, BitVec.or_assoc]

/-- Settles O6: no encoding function reads the mask, every emitted byte is legal, and a valid pin map has distinct
positions. -/
theorem readWriteLineIsNeverAsserted : Obligations.ReadWriteLineIsNeverAsserted := by
  refine ⟨fun m x lit rs n v level => ?_, fun pos m h => ⟨fun lit rs n v level b hb => ?_, fun k t hk ht => ?_⟩⟩
  · exact ⟨nib_with_rw m x n, base_with_rw m x lit rs, pair_with_rw m x lit rs n, frame_with_rw m x lit rs v,
      relatchByte_with_rw m x level⟩
  · obtain ⟨-, hrw⟩ := emitted_legal h hb
    exact hrw
  · exact h.pos_ne (s := .rw) hk ht.symm

end Sys2Proof.Machine
end

section
/-! The statement on the pin map: 40_pinmap.md R103 (the masks that `construct` leaves). -/

namespace Sys2Proof.Machine

/-- Masks of different signals share no bit: the position of one is not the other's (10_state.md R23). -/
theorem PinMapValid.masks_disjoint {pos : PerSignal (Option (Fin 8))} {m : PerSignal Byte} (h : PinMapValid pos m)
    {a b : Signal} (hne : a ≠ b) : m.get a &&& m.get b = 0 := by
  rw [h.masks b]
  cases hb : pos.get b with
  | none => exact and_maskOf_none _
  | some k =>
    rw [and_maskOf_eq_zero, h.mask_bit]
    exact decide_eq_false (h.pos_ne hb hne.symm)

/-- Settles O12: accepted operands leave a valid pin map, from which the masks are read off; rejected ones change only
the report and the draw count. -/
theorem masksAreDisjointPowersOfTwo : Obligations.MasksAreDisjointPowersOfTwo := by
  refine fun p s t hs h => ⟨fun hp => ?_, fun hp => ?_⟩
  · have ht : (s.constructed p).report .done = t :=
      Host.Outcome.next.inj ((execConstruct_accepted hs hp).symm.trans h)
    have hvalid : PinMapValid t.pos t.mask := ht ▸ constructed_valid s hp
    refine ⟨ht ▸ rfl, fun a b hne => hvalid.masks_disjoint hne, fun a => (hvalid.masks a).trans ?_⟩
    -- `maskOf` at an absent and at a present position
    cases t.pos.get a with
    | none => rfl
    | some k => rfl
  · obtain ⟨f, -, he⟩ := execConstruct_rejected hs hp
    obtain rfl := Host.Outcome.next.inj (he.symm.trans h)
    exact hs

end Sys2Proof.Machine
end

section
/-! The statements on the flag operations: 41_display_state.md R110 to R112 (the display-control group `DC`) and R113
(the entry-mode group `EM`). -/

namespace Sys2Proof.Machine

/-! ### The shared operation -/

/-- `Set(DC, DC')` and the transaction that carries the group, as a whole next state (41_display_state.md R110 to R112;
the write stays when the transaction fails, 60_exceptions.md R179). -/
theorem sendDc_eq (s : State) (d : BitVec 3) :
    sendDc s d = .next
      { ({ s with dc := d } : State).transact (frame s.mask s.lit false (0x08#8 ||| d.setWidth 8)) with
        seq := none
        reports := s.reports ++ [if s.nextAnswer = .ok then .done else .error (.transport 0)] } :=
  runPlan_set_tx s (.dc d) (frame s.mask s.lit false (dcByte d)) .done

/-- `sendDc` as seen by the next operation: the group is replaced, one item joins the trace, and what a frame is
computed from is kept. -/
theorem sendDc_next {s t : State} {d : BitVec 3} (h : sendDc s d = .next t) :
    t.dc = d ∧ t.trace = s.trace ++ [.tx s.cfg.i2cAddr (frame s.mask s.lit false (dcByte d)) s.nextAnswer] ∧
      t.mask = s.mask ∧ t.lit = s.lit ∧ t.cfg = s.cfg := by
  obtain rfl := Host.Outcome.next.inj ((sendDc_eq s d).symm.trans h)
  have hanswer : ({ s with dc := d } : State).nextAnswer = s.nextAnswer := nextAnswer_write s (.dc d)
  simp [State.lit, dcByte, hanswer]

/-! ### The operations in a constructed block -/

section
variable {s : State} (hs : s.life = .constructed)
include hs

theorem exec_display (on : Bool) : exec (.display on) s = sendDc s (dcWithDisp s.dc on) :=
  whenConstructed_of hs _

theorem exec_cursor (on : Bool) : exec (.cursor on) s = sendDc s (dcWithCur s.dc on) :=
  whenConstructed_of hs _

theorem exec_blink (on : Bool) : exec (.blink on) s = sendDc s (dcWithBlink s.dc on) :=
  whenConstructed_of hs _

/-- `Set(EM, EM')` and the transaction that carries the group, as a whole next state (41_display_state.md R113). -/
theorem exec_entryMode (direction : EntryDir) (autoscroll : Bool) :
    exec (.entryMode direction autoscroll) s = .next
      { ({ s with em := emOf direction autoscroll } : State).transact
          (frame s.mask s.lit false (0x04#8 ||| (emOf direction autoscroll).setWidth 8)) with
        seq := none
        reports := s.reports ++ [if s.nextAnswer = .ok then .done else .error (.transport 0)] } :=
  (whenConstructed_of hs _).trans
    (runPlan_set_tx s (.em (emOf direction autoscroll))
      (frame s.mask s.lit false (emByte (emOf direction autoscroll))) .done)

end

/-- Where `blink` leads to a next state, that state is `sendDc`'s. -/
theorem exec_blink_next {on : Bool} {s t : State} (h : exec (.blink on) s = .next t) :
    sendDc s (dcWithBlink s.dc on) = .next t := by
  obtain ⟨-, hsend⟩ := whenConstructed_next h
  exact hsend

/-! ### The updated flags -/

theorem dcWithBlink_true (dc : BitVec 3) : dcWithBlink dc true = dc ||| 1#3 := by revert dc; decide

/-- Blink on and then off gives a group with blink off back (41_display_state.md R112). -/
theorem dcWithBlink_on_off {dc : BitVec 3} (h : dc.getLsbD 0 = false) :
    dcWithBlink (dcWithBlink dc true) false = dc := by revert dc; decide

theorem toBool_eq_decide (direction : EntryDir) : direction.toBool = decide (direction = .ltr) := by
  cases direction <;> rfl

/-- `EM[1]` is the code of the direction (30_encoding.md R74, 41_display_state.md R113). -/
theorem emOf_getLsbD_one (direction : EntryDir) (autoscroll : Bool) :
    (emOf direction autoscroll).getLsbD 1 = decide (direction = .ltr) :=
  calc (emOf direction autoscroll).getLsbD 1
      = (emDir (emOf direction autoscroll)).toBool := (toBool_entryDirOf _).symm
    _ = direction.toBool := by rw [emOf_dir]
    _ = decide (direction = .ltr) := toBool_eq_decide direction

/-! ### The obligations -/

/-- Settles O16: `display` is `sendDc` of the group with bit 2 replaced. -/
theorem displaySetsItsFlagAndSends : Obligations.DisplaySetsItsFlagAndSends := fun on s hs =>
  ⟨dcWithDisp s.dc on, dcWithDisp_disp s.dc on, dcWithDisp_cur s.dc on, dcWithDisp_blink s.dc on,
    (exec_display hs on).trans (sendDc_eq s _)⟩

/-- Settles O17: `cursor` is `sendDc` of the group with bit 1 replaced. -/
theorem cursorSetsItsFlagAndSends : Obligations.CursorSetsItsFlagAndSends := fun on s hs =>
  ⟨dcWithCur s.dc on, dcWithCur_disp s.dc on, dcWithCur_cur s.dc on, dcWithCur_blink s.dc on,
    (exec_cursor hs on).trans (sendDc_eq s _)⟩

/-- Settles O18: `blink` is `sendDc` of the group with bit 0 replaced; the second `sendDc` starts from the first one's
group and computes its frame from the same pin map and backlight. -/
theorem blinkSetsItsFlagAndSends : Obligations.BlinkSetsItsFlagAndSends := by
  refine ⟨fun on s hs => ?_, fun s t u hoff hon hback => ?_⟩
  · exact ⟨dcWithBlink s.dc on, dcWithBlink_disp s.dc on, dcWithBlink_cur s.dc on, dcWithBlink_blink s.dc on,
      (exec_blink hs on).trans (sendDc_eq s _)⟩
  · obtain ⟨htdc, httrace, htmask, htlit, htcfg⟩ := sendDc_next (exec_blink_next hon)
    obtain ⟨hudc, hutrace, -⟩ := sendDc_next (exec_blink_next hback)
    have hdc : dcWithBlink t.dc false = s.dc := by rw [htdc, dcWithBlink_on_off hoff]
    rw [hdc] at hudc hutrace
    refine ⟨hudc, s.nextAnswer, t.nextAnswer, ?_⟩
    rw [hutrace, httrace, htmask, htlit, htcfg, dcWithBlink_true, List.append_assoc]
    rfl

/-- Settles O19: `EM` becomes `emOf` of the two operands, whose bits are read off. -/
theorem entryModeSetsBothFlagsAndSends : Obligations.EntryModeSetsBothFlagsAndSends := fun direction autoscroll _ hs =>
  ⟨emOf direction autoscroll, emOf_getLsbD_one direction autoscroll, emOf_autoscroll direction autoscroll,
    exec_entryMode hs direction autoscroll⟩

end Sys2Proof.Machine
end

section
/-! The statement on `home`: 45_display_controller.md R151. -/

namespace Sys2Proof.Machine

/-- In a constructed block `home` performs one transaction, the frame of 0x02, and one settle delay
(45_display_controller.md R151). -/
theorem exec_home {s : State} (hs : s.life = .constructed) :
    exec .home s = runPlan singleTransportError [.tx (frame s.mask s.lit false 0x02), .delay .settle] .done s :=
  whenConstructed_of hs _

/-- Settles O34: the plan of `home` is a transaction followed by a delay, and `runPlan_tx_delay` gives the next state of
such a plan for both answers of the transport. -/
theorem homeSendsAndSettles : Obligations.HomeSendsAndSettles := fun s hs =>
  (exec_home hs).trans (runPlan_tx_delay s (frame s.mask s.lit false 0x02) .settle .done)

end Sys2Proof.Machine
end

section
/-! The statement on the class ConfigurationError: 60_exceptions.md R171. -/

namespace Sys2Proof.Machine

/-! ### What an operation that performs its plan tells the host -/

/-- The result of a completed operation is one that its row allows (30_encoding.md R72). -/
theorem resultOf_mayReport (i : Instr) : mayReport i (resultOf i) = true := by
  cases i with
  | writeByte | writeBytes => simp [resultOf, mayReport]
  | _ => rfl

/-- An operation whose plan was performed reports its result or the error of one of its transactions, and nothing else
(00_scope.md R13, R14). -/
theorem planOutcome_reports (s : State) (i : Instr) :
    ∃ r, (planOutcome s i).reports = s.reports ++ [r] ∧
      (r = resultOf i ∨ ∃ k, k < (planTxs (planOf s i)).length ∧ r = .error (errorOf s i k)) := by
  have hstart : (startOf s i).reports = s.reports := by
    rcases startOf_eq s i with h | h <;> simp [h]
  obtain ⟨hreports, -⟩ := perform_fixed (errorOf s i) (planOf s i) (startOf s i)
  refine ⟨_, by rw [planOutcome, report_reports, hreports, hstart], ?_⟩
  cases he : (perform (errorOf s i) (planOf s i) (startOf s i)).2 with
  | none => exact .inl rfl
  | some e =>
    obtain ⟨k, hk, rfl⟩ := perform_error he
    exact .inr ⟨k, hk, rfl⟩

/-- What such an operation reports is an outcome that its row allows (60_exceptions.md R175). -/
theorem planOutcome_mayReport (s : State) {i : Instr} (hi : i.isConstruct = false) :
    ∃ r, (planOutcome s i).reports = s.reports ++ [r] ∧ mayReport i r = true := by
  obtain ⟨r, hr, rfl | ⟨k, hk, rfl⟩⟩ := planOutcome_reports s i
  · exact ⟨_, hr, resultOf_mayReport i⟩
  · exact ⟨_, hr, errorOf_mayReport hi hk⟩

/-! ### ConfigurationError -/

/-- Only the row of `construct` allows a ConfigurationError (60_exceptions.md R171, R175). -/
theorem isConstruct_of_mayReport_configuration {i : Instr} {f : PinFault}
    (h : mayReport i (.error (.configuration f)) = true) : i.isConstruct = true := by
  cases i with
  | construct => rfl
  | _ => exact nomatch h

/-- Inversion of `exec` on a ConfigurationError: of the four ways to a next state only rejected pins report one. -/
theorem exec_configuration {i : Instr} {s t : State} {f : PinFault} (h : exec i s = .next t)
    (hr : t.reports = s.reports ++ [.error (.configuration f)]) :
    ∃ p, i = .construct p ∧ s.life = .unconstructed ∧ t = s.draw.report (.error (.configuration f)) := by
  rcases exec_next h with ⟨p, -, -, -, rfl⟩ | ⟨p, f', rfl, hl, -, -, rfl⟩ | ⟨col, row, which, -, -, -, rfl⟩ |
    ⟨hi, -, rfl⟩
  · -- accepted pins: the report is `done`
    have : Report.done = .error (.configuration f) := List.singleton_inj.1 (List.append_cancel_left hr)
    cases this
  · -- rejected pins
    obtain rfl : f' = f := by simpa using hr
    exact ⟨p, rfl, hl, rfl⟩
  · -- a rejected cursor position: the report is an InvalidArgument
    simp at hr
  · -- a performed plan: its row of the table allows no ConfigurationError
    obtain ⟨r, hr', hm⟩ := planOutcome_mayReport s hi
    obtain rfl : r = .error (.configuration f) := List.singleton_inj.1 (List.append_cancel_left (hr'.symm.trans hr))
    simp [isConstruct_of_mayReport_configuration hm] at hi

/-- Settles O14: a ConfigurationError comes from `construct` with rejected pins, whose next state differs in the report
and the draw count alone; that state is unconstructed, so `construct` with accepted pins succeeds in it. -/
theorem configurationErrorWritesNothing : Obligations.ConfigurationErrorWritesNothing := by
  intro i s t f h hr
  obtain ⟨p, rfl, hl, rfl⟩ := exec_configuration h hr
  exact ⟨rfl, hl, rfl, fun q hq => ⟨_, execConstruct_accepted hl hq, rfl⟩⟩

end Sys2Proof.Machine
end

section
/-! The statements on what frames put on the lines: 30_encoding.md R82 (the properties of a frame), 20_memory.md R58
(the bits of no present signal) and 60_exceptions.md R189 (what falling edges of enable read). -/

namespace Sys2Proof.Machine

/-! ### Every emitted byte is a byte of lines -/

/-- A byte of a frame shows the frame's backlight and register-select levels (30_encoding.md R79). -/
theorem exists_levelByte_of_mem_frame {m : PerSignal Byte} {lit rs : Bool} {v b : Byte} (hb : b ∈ frame m lit rs v) :
    ∃ e n, b = levelByte m lit rs e n := by
  simp only [frame_levels, List.mem_cons, List.not_mem_nil, or_false] at hb
  obtain rfl | rfl | rfl | rfl := hb
  all_goals exact ⟨_, _, rfl⟩

/-- The bytes of frames, of pairs and of re-latches are all such bytes. -/
theorem exists_levelByte_of_emitted {m : PerSignal Byte} {lit rs : Bool} {n : Nibble} {v level b : Byte}
    (hb : b ∈ frame m lit rs v ∨ b ∈ pair m lit rs n ∨ b = relatchByte m level) :
    ∃ lit' rs' e n', b = levelByte m lit' rs' e n' := by
  obtain hb | hb | rfl := hb
  · obtain ⟨e, n', rfl⟩ := exists_levelByte_of_mem_frame hb
    exact ⟨_, _, _, _, rfl⟩
  · simp only [pair_levels, List.mem_cons, List.not_mem_nil, or_false] at hb
    obtain rfl | rfl := hb
    all_goals exact ⟨_, _, _, _, rfl⟩
  · exact ⟨_, _, _, _, relatchByte_eq m level⟩

/-! ### The enable line -/

/-- Raising `en` changes no other line. -/
theorem levelByte_true_eq_or (m : PerSignal Byte) (lit rs : Bool) (n : Nibble) :
    levelByte m lit rs true n = levelByte m lit rs false n ||| m.en := by
  rw [levelByte_true, levelByte_false]

section
variable {pos : PerSignal (Option (Fin 8))} {m : PerSignal Byte} (h : PinMapValid pos m)
include h

/-- `en` is mandatory, so its mask has a bit (10_state.md R22). -/
theorem PinMapValid.en_ne_zero : m.en ≠ 0 := fun h0 => by
  -- a byte with `en` high meets the mask
  have hmeets := (levelByte_and_mandatory h false false true 0 (s := .en) (by decide) (by decide)).2 rfl
  simp [PerSignal.get, h0] at hmeets

theorem levelByte_en_high (lit rs : Bool) (n : Nibble) : levelByte m lit rs true n &&& m.en ≠ 0 :=
  (levelByte_and_mandatory h lit rs true n (s := .en) (by decide) (by decide)).2 rfl

theorem levelByte_en_low (lit rs : Bool) (n : Nibble) : levelByte m lit rs false n &&& m.en = 0 := by
  have := mt (levelByte_and_mandatory h lit rs false n (s := .en) (by decide) (by decide)).1
  simpa [lineLevel, PerSignal.get] using this

/-- The register-select line shows `rs`. -/
theorem levelByte_rs (lit rs e : Bool) (n : Nibble) : levelByte m lit rs e n &&& m.rs ≠ 0 ↔ rs = true :=
  levelByte_and_mandatory h lit rs e n (s := .rs) (by decide) (by decide)

/-! ### What falling edges read -/

/-- Of a pair's two bytes the first raises `en` and the second is a steady falling edge, whatever stood on the pins
before (30_encoding.md R78, 60_exceptions.md R189). -/
theorem latchedNibbles_pair_append (lit rs : Bool) (n : Nibble) (before : Byte) (rest : List Byte) :
    latchedNibbles m before (pair m lit rs n ++ rest) =
      (rs, n) :: latchedNibbles m (levelByte m lit rs false n) rest := by
  have hrs : decide (levelByte m lit rs false n &&& m.rs ≠ 0) = rs :=
    Bool.eq_iff_iff.2 (decide_eq_true_iff.trans (levelByte_rs h lit rs false n))
  have hfall : latchedAt m (levelByte m lit rs true n) (levelByte m lit rs false n) rest.length = [(rs, n)] := by
    rw [levelByte_true_eq_or, latchedAt_steady _ _ _ h.en_ne_zero (levelByte_en_low h lit rs n), unnib_levelByte h, hrs]
  simp only [pair_levels, List.cons_append, List.nil_append, latchedNibbles,
    latchedAt_high m _ _ _ (levelByte_en_high h lit rs n), hfall]

/-- A frame is read as its two nibbles, high first (30_encoding.md R79). -/
theorem latchedNibbles_frame_append (lit rs : Bool) (v before : Byte) (rest : List Byte) :
    latchedNibbles m before (frame m lit rs v ++ rest) =
      (rs, highNibble v) :: (rs, lowNibble v) :: latchedNibbles m (levelByte m lit rs false (lowNibble v)) rest := by
  rw [frame, List.append_assoc, latchedNibbles_pair_append h, latchedNibbles_pair_append h]

end

/-! ### The obligations -/

/-- Settles O8, by induction on the bytes: each frame is read as its nibbles whatever byte the one before it left. -/
theorem fallingEdgesReadTheFrames : Obligations.FallingEdgesReadTheFrames := by
  intro pos m h lit rs before bytes
  induction bytes generalizing before with
  | nil => rfl
  | cons v rest ih =>
    rw [List.flatMap_cons, latchedNibbles_frame_append h, ih]
    rfl

/-- Settles O3: the enable-low bytes show the two nibbles, and `unnib` reads them. -/
theorem frameRoundTrip : Obligations.FrameRoundTrip := by
  intro pos m h lit rs v
  refine ⟨_, _, _, _, frame_levels m lit rs v, ?_⟩
  rw [unnib_levelByte h, unnib_levelByte h, nibbles_join]

/-- Settles O4: the enable-high byte of each pair is the low one with the bit of `en`. -/
theorem framePulsesEnableTwice : Obligations.FramePulsesEnableTwice := fun _ m h lit rs v =>
  ⟨_, _, _, _, frame_levels m lit rs v, levelByte_true_eq_or m lit rs _, levelByte_true_eq_or m lit rs _,
    levelByte_en_low h lit rs _, levelByte_en_low h lit rs _, h.en_ne_zero⟩

/-- Settles O5: each byte of a frame has the frame's levels on its lines. -/
theorem frameControlBitsHoldSteady : Obligations.FrameControlBitsHoldSteady := by
  intro pos m h lit rs v b hb
  obtain ⟨e, n, rfl⟩ := exists_levelByte_of_mem_frame hb
  exact ⟨levelByte_rs h lit rs e n, levelByte_and_mask h lit rs e n .bl⟩

/-- Settles O7: each emitted byte has levels on the lines of signals only. -/
theorem unassignedBitsStayZero : Obligations.UnassignedBitsStayZero := by
  intro pos m h k hk lit rs n v level b hb
  obtain ⟨lit', rs', e, n', rfl⟩ := exists_levelByte_of_emitted hb
  exact levelByte_unassigned h lit' rs' e n' fun t _ => hk t

end Sys2Proof.Machine
end

section
/-! The statements on the host port's images: 30_encoding.md R70 (formats), R74 (operand codes) and R86 (the reserved
code). -/

namespace Sys2Proof

/-! ### The formats of optional pins -/

/-- A pin list whose optional positions decode is that `construct` (30_encoding.md R70, format F-PIN). -/
theorem decodePins_of_ok {rwFlag rw blFlag bl : Byte} {rw' bl' : Option Byte} (hrw : decodePin rwFlag rw = .ok rw')
    (hbl : decodePin blFlag bl = .ok bl') (rs en d0 d1 d2 d3 : Byte) :
    decodePins [rs, rwFlag, rw, en, blFlag, bl, d0, d1, d2, d3] =
      .ok (.construct { rs := rs, rw := rw', en := en, bl := bl', d0 := d0, d1 := d1, d2 := d2, d3 := d3 }) := by
  simp only [decodePins, hrw, hbl]

/-- The image of a pin list decodes to it. -/
theorem decodePins_operands (p : PinOperands) :
    decodePins (Instr.construct p).operands = .ok (.construct p) := by
  obtain ⟨rs, rw, en, bl, d0, d1, d2, d3⟩ := p
  cases rw with
  | none => cases bl with
    | none => exact decodePins_of_ok decodePin_absent decodePin_absent rs en d0 d1 d2 d3
    | some q => exact decodePins_of_ok decodePin_absent (decodePin_present q) rs en d0 d1 d2 d3
  | some p => cases bl with
    | none => exact decodePins_of_ok (decodePin_present p) decodePin_absent rs en d0 d1 d2 d3
    | some q => exact decodePins_of_ok (decodePin_present p) (decodePin_present q) rs en d0 d1 d2 d3

/-- The operand bytes of a well-formed operation decode, under its OPSEL, to it (30_encoding.md R70). -/
theorem decodeOperands_operands {i : Instr} (h : WellFormed i) : decodeOperands i.opsel i.operands = .ok i := by
  cases i with
  | construct p => exact decodePins_operands p
  | display | cursor | blink | scroll | entryMode =>
    simp [decodeOperands, Instr.opsel, Instr.operands, decodeFlag, decodeEntry, Except.map]
  | createGlyph slot bitmap =>
    have hlen : bitmap.length = glyphLen := eq_of_beq h
    simp [decodeOperands, Instr.opsel, Instr.operands, decodeGlyph, hlen]
  | _ => rfl

/-! ### What decodes was so encoded -/

section
variable {operands : List Byte} {i : Instr}

theorem decodePins_ok (h : decodePins operands = .ok i) : ∃ p, i = .construct p ∧ i.operands = operands := by
  unfold decodePins at h
  split at h
  case h_2 => cases h
  case h_1 rs rwFlag rw en blFlag bl d0 d1 d2 d3 =>
    cases hrw : decodePin rwFlag rw with
    | error e => simp [hrw] at h
    | ok rw' => cases hbl : decodePin blFlag bl with
      | error e => simp [hrw, hbl] at h
      | ok bl' =>
        simp only [hrw, hbl, Except.ok.injEq] at h
        subst h
        exact ⟨_, rfl, by simp [Instr.operands, decodePin_ok hrw, decodePin_ok hbl]⟩

theorem decodeNone_ok {j : Instr} (h : decodeNone j operands = .ok i) : operands = [] ∧ i = j := by
  unfold decodeNone at h
  split at h
  · cases h; exact ⟨rfl, rfl⟩
  · cases h

theorem decodeOne_ok {mk : Byte → Instr} (h : decodeOne mk operands = .ok i) : ∃ b, operands = [b] ∧ i = mk b := by
  unfold decodeOne at h
  split at h
  · cases h; exact ⟨_, rfl, rfl⟩
  · cases h

theorem decodeTwo_ok {mk : Byte → Byte → Instr} (h : decodeTwo mk operands = .ok i) :
    ∃ a b, operands = [a, b] ∧ i = mk a b := by
  unfold decodeTwo at h
  split at h
  · cases h; exact ⟨_, _, rfl, rfl⟩
  · cases h

theorem decodeFlag_ok {mk : Bool → Instr} (h : decodeFlag mk operands = .ok i) :
    ∃ x, operands = [encodeBit x] ∧ i = mk x := by
  unfold decodeFlag at h
  split at h
  case h_2 => cases h
  case h_1 b =>
    cases hb : decodeBit b with
    | error e => simp [hb, Except.map] at h
    | ok x =>
      simp only [hb, Except.map, Except.ok.injEq] at h
      exact ⟨x, by rw [decodeBit_ok hb], h.symm⟩

theorem decodeEntry_ok (h : decodeEntry operands = .ok i) :
    ∃ d a, operands = [encodeBit d, encodeBit a] ∧ i = .entryMode (entryDirOf d) a := by
  unfold decodeEntry at h
  split at h
  case h_2 => cases h
  case h_1 d a =>
    cases hd : decodeBit d with
    | error e => simp [hd] at h
    | ok d' => cases ha : decodeBit a with
      | error e => simp [hd, ha] at h
      | ok a' =>
        simp only [hd, ha, Except.ok.injEq] at h
        exact ⟨d', a', by rw [decodeBit_ok hd, decodeBit_ok ha], h.symm⟩

theorem decodeGlyph_ok (h : decodeGlyph operands = .ok i) :
    ∃ slot bitmap, operands = slot :: bitmap ∧ bitmap.length = glyphLen ∧ i = .createGlyph slot bitmap := by
  unfold decodeGlyph at h
  split at h
  case h_2 => cases h
  case h_1 slot bitmap =>
    split at h
    case isTrue hlen => cases h; exact ⟨slot, bitmap, rfl, hlen, rfl⟩
    case isFalse => cases h

/-- What decodes under an OPSEL is a well-formed operation with that OPSEL and those operand bytes (30_encoding.md
R70). -/
theorem decodeOperands_ok {opsel : BitVec 4} (h : decodeOperands opsel operands = .ok i) :
    WellFormed i ∧ i.opsel = opsel ∧ i.operands = operands := by
  have hopsel : ∀ {j : Instr}, opsel.toNat = j.opsel.toNat → j.opsel = opsel :=
    fun he => (BitVec.eq_of_toNat_eq he).symm
  unfold decodeOperands at h
  split at h
  case h_1 he => obtain ⟨p, rfl, ho⟩ := decodePins_ok h; exact ⟨rfl, hopsel he, ho⟩
  case h_2 he => obtain ⟨columns, rows, rfl, rfl⟩ := decodeTwo_ok h; exact ⟨rfl, hopsel he, rfl⟩
  case h_3 he => obtain ⟨rfl, rfl⟩ := decodeNone_ok h; exact ⟨rfl, hopsel he, rfl⟩
  case h_4 he => obtain ⟨rfl, rfl⟩ := decodeNone_ok h; exact ⟨rfl, hopsel he, rfl⟩
  case h_5 he => obtain ⟨col, row, rfl, rfl⟩ := decodeTwo_ok h; exact ⟨rfl, hopsel he, rfl⟩
  case h_6 he => obtain ⟨on, rfl, rfl⟩ := decodeFlag_ok h; exact ⟨rfl, hopsel he, rfl⟩
  case h_7 he => obtain ⟨on, rfl, rfl⟩ := decodeFlag_ok h; exact ⟨rfl, hopsel he, rfl⟩
  case h_8 he => obtain ⟨on, rfl, rfl⟩ := decodeFlag_ok h; exact ⟨rfl, hopsel he, rfl⟩
  case h_9 he =>
    obtain ⟨right, rfl, rfl⟩ := decodeFlag_ok h
    exact ⟨rfl, hopsel he, by rw [Instr.operands, toBool_scrollDirOf]⟩
  case h_10 he =>
    obtain ⟨ltr, autoscroll, rfl, rfl⟩ := decodeEntry_ok h
    exact ⟨rfl, hopsel he, by rw [Instr.operands, toBool_entryDirOf]⟩
  case h_11 he => obtain ⟨level, rfl, rfl⟩ := decodeOne_ok h; exact ⟨rfl, hopsel he, rfl⟩
  case h_12 he =>
    obtain ⟨slot, bitmap, rfl, hlen, rfl⟩ := decodeGlyph_ok h
    exact ⟨beq_of_eq hlen, hopsel he, rfl⟩
  case h_13 he => obtain ⟨byte, rfl, rfl⟩ := decodeOne_ok h; exact ⟨rfl, hopsel he, rfl⟩
  case h_14 he => cases h; exact ⟨rfl, hopsel he, rfl⟩
  case h_15 he => obtain ⟨byte, rfl, rfl⟩ := decodeOne_ok h; exact ⟨rfl, hopsel he, rfl⟩
  case h_16 => cases h

end

/-- OPSEL as a byte is the image's first byte without its upper half (log 2). -/
theorem opselOf_setWidth (first : Byte) : (opselOf first).setWidth 8 = first &&& 0x0F#8 := by
  revert first; decide

/-- The reserved code decodes under no operands (30_encoding.md R86). -/
theorem decode_reserved {first : Byte} (h : first.toNat % 16 = 15) (operands : List Byte) :
    decode (first :: operands) = .error .reservedOpsel := by
  have hopsel : opselOf first = 15#4 := BitVec.eq_of_toNat_eq (by simpa [opselOf] using h)
  rw [decode, hopsel]
  rfl

/-! ### The obligations -/

/-- Settles O55: the first byte holds the OPSEL, and under it the operand bytes decode. -/
theorem decodeOfEncode : Obligations.DecodeOfEncode := by
  intro i h
  rw [encode, decode, opselOf_encode, decodeOperands_operands h]

/-- Settles O56: what decodes was so encoded, and the first byte of an encoding is the OPSEL alone. -/
theorem encodeOfDecode : Obligations.EncodeOfDecode := by
  intro first operands i h
  obtain ⟨hwf, hopsel, hoperands⟩ := decodeOperands_ok h
  exact ⟨hwf, by rw [encode, hopsel, hoperands, opselOf_setWidth]⟩

/-- Settles O57: the images but the last are encodings, and O55 decodes them; the last has the reserved code. -/
theorem tableWordsDecode : Obligations.TableWordsDecode :=
  ⟨decodeOfEncode .constructDefault rfl, decodeOfEncode (.initDisplay 16 2) rfl,
    decodeOfEncode (.writeBytes [0x48, 0x69]) rfl, decodeOfEncode (.setBacklight 255) rfl,
    decodeOfEncode (.initDisplay 20 4) rfl, decodeOfEncode (.setCursor 2 1) rfl, decodeOfEncode (.blink true) rfl,
    decodeOfEncode (.blink false) rfl, decodeOfEncode (.cursor true) rfl, decodeOfEncode (.entryMode .rtl true) rfl,
    decodeOfEncode (.setCursor 0 4) rfl, decodeOfEncode (.setCursor 20 0) rfl, decodeOfEncode (.setCursor 19 3) rfl,
    decode_reserved rfl []⟩

end Sys2Proof
end

section
/-! The statements on the host port: 20_memory.md R60 (the next request) and 30_encoding.md R86 (the reserved code). -/

namespace Sys2Proof.Machine

theorem step_of_no_request {s : State} (h : s.requests = []) : step s = .next s := by
  simp [step, State.portView, h]

theorem step_of_decode_ok {s : State} {image : List Byte} {rest : List (List Byte)} {i : Instr}
    (h : s.requests = image :: rest) (hd : decode image = .ok i) : step s = exec i s.takeRequest := by
  simp [step, State.portView, h, hd]

theorem step_of_decode_error {s : State} {image : List Byte} {rest : List (List Byte)} {why : DecodeError}
    (h : s.requests = image :: rest) (hd : decode image = .error why) : step s = .refused (refusalOf why) := by
  simp [step, State.portView, h, hd]

/-- Inversion of `step`: it waits, or it performs the operation that the first request decodes to (20_memory.md R60). -/
theorem step_next {s t : State} (h : step s = .next t) : t = s ∨ ∃ i, exec i s.takeRequest = .next t := by
  cases hr : s.requests with
  | nil => exact .inl (Host.Outcome.next.inj (h.symm.trans (step_of_no_request hr)))
  | cons image rest =>
    cases hd : decode image with
    | ok i => exact .inr ⟨i, (step_of_decode_ok hr hd).symm.trans h⟩
    | error why => exact nomatch (step_of_decode_error hr hd).symm.trans h

/-! ### The obligations -/

/-- Settles O52: `takeRequest` removes the first request. -/
theorem stepRunsTheDecodedOperation : Obligations.StepRunsTheDecodedOperation := by
  intro s image rest i h hd
  rw [step_of_decode_ok h hd, State.takeRequest, h, List.tail_cons]

/-- Settles O53: the port is idle. -/
theorem stepWithoutRequestWaits : Obligations.StepWithoutRequestWaits := fun _ => step_of_no_request

/-- Settles O54: the image decodes to the error of the reserved code. -/
theorem reservedOpselIsRefused : Obligations.ReservedOpselIsRefused := fun _ _ operands _ hfirst h =>
  step_of_decode_error h (decode_reserved hfirst operands)

end Sys2Proof.Machine
end

section
/-! The statements on all operations: which registers they write (10_state.md R24 to R37), what they report
(60_exceptions.md R174, R175, R178) and what they add to the trace (30_encoding.md R90). Each goes through the four ways an
operation leads to a next state, `exec_next`, and what the performed plan adds, `Performed`. -/

namespace Sys2Proof.Machine

/-! ### What an operation that performs its plan adds -/

/-- The state `t` after operation `i` performed its plan from `s`, with the items and pin bytes that it added. -/
structure Performed (i : Instr) (s t : State) (items : List TraceItem) (bytes : List Byte) : Prop where
  trace : t.trace = s.trace ++ items
  pins : t.pins = s.pins ++ bytes
  /-- Each item is a step of the plan. -/
  fromPlan : ∀ item ∈ items, (∃ bs a, item = .tx s.cfg.i2cAddr bs a ∧ .tx bs ∈ planOf s i) ∨
    ∃ d, item = .delay d (delayMicros s.cfg d) ∧ .delay d ∈ planOf s i
  /-- Nothing is performed after a failure (00_scope.md R14). -/
  stops : ∀ item ∈ items.dropLast, item.failed = false
  /-- Whatever reached the pins is of the transactions (20_memory.md R52). -/
  mem_stream : ∀ b ∈ bytes, b ∈ pinStream items
  /-- It completed and everything was delivered, or its last transaction failed and that is its error. -/
  ending : (t.reports = s.reports ++ [resultOf i] ∧ (∀ item ∈ items, item.failed = false) ∧ bytes = pinStream items) ∨
    ((∃ k, t.reports = s.reports ++ [.error (errorOf s i k)]) ∧ ∃ item, items.getLast? = some item ∧ item.failed = true)

/-- No item failed when neither the last nor one before it did. -/
theorem not_failed_of_dropLast {items : List TraceItem} (hinit : ∀ item ∈ items.dropLast, item.failed = false)
    (hlast : ¬ ∃ item, items.getLast? = some item ∧ item.failed = true) : ∀ item ∈ items, item.failed = false := by
  rcases items.eq_nil_or_concat with rfl | ⟨init, last, rfl⟩
  · simp
  · have hl : last.failed = false := by simpa using hlast
    simpa [or_imp, forall_and, hl] using hinit

/-- What `planOutcome` leaves of each field that the operation's plan does not write. -/
theorem planOutcome_fixed (s : State) (i : Instr) :
    (planOutcome s i).life = s.life ∧ (planOutcome s i).pos = s.pos ∧ (planOutcome s i).mask = s.mask ∧
      (planOutcome s i).cfg = s.cfg ∧ (planOutcome s i).requests = s.requests ∧
      (planOutcome s i).cnt = (startOf s i).cnt ∧ (planOutcome s i).seq = none := by
  obtain ⟨-, hrequests, hcfg, hlife, hpos, hmask, hcnt⟩ := perform_fixed (errorOf s i) (planOf s i) (startOf s i)
  rcases startOf_eq s i with h | h <;> simp_all [planOutcome]

theorem planOutcome_performed (s : State) (i : Instr) : ∃ items bytes, Performed i s (planOutcome s i) items bytes := by
  obtain ⟨items, bytes, htrace, hpins, hfrom, hstops, hlast, hall, hmem⟩ :=
    performFrom_grows (errorOf s i) (planOf s i) 0 ((startOf s i).setSeq (some 0))
  obtain ⟨hreports, -⟩ := perform_fixed (errorOf s i) (planOf s i) (startOf s i)
  have hstart : (startOf s i).trace = s.trace ∧ (startOf s i).pins = s.pins ∧ (startOf s i).cfg = s.cfg ∧
      (startOf s i).reports = s.reports := by
    rcases startOf_eq s i with h | h <;> simp [h]
  obtain ⟨htr, hp, hc, hr⟩ := hstart
  simp only [setSeq_trace, setSeq_pins, setSeq_cfg, htr, hp, hc] at htrace hpins hfrom
  refine ⟨items, bytes, htrace, hpins, hfrom, hstops, hmem, ?_⟩
  rw [planOutcome, report_reports, hreports, hr]
  cases he : (perform (errorOf s i) (planOf s i) (startOf s i)).2 with
  | none =>
    exact .inl ⟨rfl, not_failed_of_dropLast hstops fun hf => hlast.1 hf he, (hall he).1⟩
  | some e =>
    obtain ⟨k, -, rfl⟩ := perform_error he
    refine .inr ⟨⟨k, rfl⟩, hlast.2 fun hn => ?_⟩
    exact nomatch he.symm.trans hn

/-- The display state's registers that operation `i` may not write are the same in both states (10_state.md R26 to
R29). -/
structure KeepsRegisters (i : Instr) (s t : State) : Prop where
  em : writesEm i = false → t.em = s.em
  dc : writesDc i = false → t.dc = s.dc
  bl : writesBl i = false → t.bl = s.bl
  geometry : writesGeometry i = false → t.cols = s.cols ∧ t.rows = s.rows

theorem KeepsRegisters.refl (i : Instr) (s : State) : KeepsRegisters i s s :=
  ⟨fun _ => rfl, fun _ => rfl, fun _ => rfl, fun _ => ⟨rfl, rfl⟩⟩

theorem KeepsRegisters.of_eq {i : Instr} {s t u : State} (h : KeepsRegisters i s t) (hem : u.em = t.em)
    (hdc : u.dc = t.dc) (hbl : u.bl = t.bl) (hcols : u.cols = t.cols) (hrows : u.rows = t.rows) :
    KeepsRegisters i s u :=
  ⟨fun hn => hem.trans (h.em hn), fun hn => hdc.trans (h.dc hn), fun hn => hbl.trans (h.bl hn),
    fun hn => ⟨hcols.trans (h.geometry hn).1, hrows.trans (h.geometry hn).2⟩⟩

/-- A write of the operation's plan is to a register that it may write. -/
theorem KeepsRegisters.write {i : Instr} {s t u : State} {w : FieldWrite} (hw : .set w ∈ planOf u i)
    (h : KeepsRegisters i s t) : KeepsRegisters i s (t.write w) := by
  have hmay := planOf_set hw
  obtain ⟨hem, hdc, hbl, hgeometry⟩ := h
  cases w with
  | em v => exact ⟨fun hn => (nomatch hmay.symm.trans hn), hdc, hbl, hgeometry⟩
  | dc v => exact ⟨hem, fun hn => (nomatch hmay.symm.trans hn), hbl, hgeometry⟩
  | bl v => exact ⟨hem, hdc, fun hn => (nomatch hmay.symm.trans hn), hgeometry⟩
  | cols v | rows v => exact ⟨hem, hdc, hbl, fun hn => (nomatch hmay.symm.trans hn)⟩

theorem planOutcome_keepsRegisters (s : State) (i : Instr) : KeepsRegisters i s (planOutcome s i) := by
  have hstart : KeepsRegisters i s (startOf s i) := by
    rcases startOf_eq s i with h | h <;> rw [h]
    · exact .refl i s
    · exact (KeepsRegisters.refl i s).of_eq rfl rfl rfl rfl rfl
  have hplan : KeepsRegisters i s (perform (errorOf s i) (planOf s i) (startOf s i)).1 :=
    perform_keeps (startOf s i) (KeepsRegisters i s) _ _ (fun t k h => h.of_eq rfl rfl rfl rfl rfl)
      (fun t h => h.of_eq rfl rfl rfl rfl rfl) (fun w hw t h => h.write hw)
      (fun d _ t h => h.of_eq rfl rfl rfl rfl rfl)
      (fun bs _ t h => h.of_eq (transact_em t bs) (transact_dc t bs) (transact_bl t bs) (transact_cols t bs)
        (transact_rows t bs)) hstart
  exact hplan.of_eq rfl rfl rfl rfl rfl

theorem startOf_cnt {i : Instr} (s : State) (h : writesCnt i = false) : (startOf s i).cnt = s.cnt := by
  cases i with
  | createGlyph | writeBytes => exact nomatch h
  | _ => rfl

/-! ### The obligations -/

/-- Settles O45: of the four ways to a next state two only report, `construct` may write everything, and a performed
plan writes what its operation may. -/
theorem registersChangeOnlyByTheirOperations : Obligations.RegistersChangeOnlyByTheirOperations := by
  intro i s t h
  rcases exec_next h with ⟨p, rfl, -, -, rfl⟩ | ⟨p, f, rfl, -, -, -, rfl⟩ | ⟨col, row, which, rfl, -, -, rfl⟩ |
    ⟨hi, -, rfl⟩
  · -- accepted pins
    exact ⟨nofun, nofun, nofun, nofun, nofun, nofun, .inr rfl, rfl, rfl, fun _ => ⟨rfl, rfl⟩⟩
  · -- rejected pins
    exact ⟨nofun, nofun, nofun, nofun, nofun, nofun, .inl rfl, rfl, rfl, fun _ => ⟨rfl, rfl⟩⟩
  · -- a rejected cursor position
    exact ⟨fun _ => ⟨rfl, rfl, rfl⟩, fun _ => rfl, fun _ => rfl, fun _ => rfl, fun _ => ⟨rfl, rfl⟩, fun _ => rfl,
      .inl rfl, rfl, rfl, nofun⟩
  · -- a performed plan
    obtain ⟨hlife, hpos, hmask, hcfg, hrequests, hcnt, hseq⟩ := planOutcome_fixed s i
    obtain ⟨hem, hdc, hbl, hgeometry⟩ := planOutcome_keepsRegisters s i
    exact ⟨fun _ => ⟨hlife, hpos, hmask⟩, hem, hdc, hbl, hgeometry, fun hn => hcnt.trans (startOf_cnt s hn), .inr hseq,
      hcfg, hrequests, fun hc => (nomatch hc.symm.trans hi)⟩

/-- Settles O46: each way to a next state reports once, what its row allows. -/
theorem everyOperationReportsAnAllowedOutcome : Obligations.EveryOperationReportsAnAllowedOutcome := by
  intro i s t h
  rcases exec_next h with ⟨p, rfl, -, -, rfl⟩ | ⟨p, f, rfl, -, -, -, rfl⟩ | ⟨col, row, which, rfl, -, -, rfl⟩ |
    ⟨hi, -, rfl⟩
  · exact ⟨.done, rfl, rfl⟩
  · exact ⟨.error (.configuration f), rfl, rfl⟩
  · exact ⟨.error (.invalidArgument which), rfl, rfl⟩
  · exact planOutcome_mayReport s hi

/-- A performed plan reports a transport class of error or its result, never another error (60_exceptions.md R175). -/
theorem errorOf_transport (s : State) (i : Instr) (k : Nat) :
    (∃ n, errorOf s i k = .initFailure n) ∨ ∃ offset, errorOf s i k = .transport offset := by
  cases i with
  | initDisplay => exact .inl ⟨k, rfl⟩
  | _ => exact .inr ⟨_, rfl⟩

theorem resultOf_ne_error (i : Instr) (e : OpError) : resultOf i ≠ .error e := by
  cases i <;> simp [resultOf]

/-- Settles O47: a performed plan adds `Performed`'s items; every other way to a next state adds none and reports
neither class. -/
theorem errorsArePrecise : Obligations.ErrorsArePrecise := by
  intro i s t h
  rcases exec_next h with ⟨p, -, -, -, rfl⟩ | ⟨p, f, -, -, -, -, rfl⟩ | ⟨col, row, which, -, -, -, rfl⟩ |
    ⟨-, -, rfl⟩
  · exact ⟨[], [], .done, by simp [State.constructed]⟩
  · exact ⟨[], [], .error (.configuration f), by simp⟩
  · exact ⟨[], [], .error (.invalidArgument which), by simp⟩
  · obtain ⟨items, bytes, hp⟩ := planOutcome_performed s i
    rcases hp.ending with ⟨hreport, hok, -⟩ | ⟨⟨k, hreport⟩, hfailed⟩
    · refine ⟨items, bytes, _, hp.trace, hp.pins, hreport, hp.stops, iff_of_false ?_ ?_⟩
      · rintro ⟨item, hlast, hf⟩
        exact nomatch hf.symm.trans (hok item (List.mem_of_getLast? hlast))
      · rintro (⟨k, he⟩ | ⟨offset, he⟩)
        all_goals exact resultOf_ne_error i _ he
    · refine ⟨items, bytes, _, hp.trace, hp.pins, hreport, hp.stops, iff_of_true hfailed ?_⟩
      rcases errorOf_transport s i k with ⟨n, he⟩ | ⟨offset, he⟩
      · exact .inl ⟨n, by rw [he]⟩
      · exact .inr ⟨offset, by rw [he]⟩

/-- Settles O48: the items of a performed plan are its steps, whose shapes are known. -/
theorem transactionLengthsTellTheirOperation : Obligations.TransactionLengthsTellTheirOperation := by
  intro i s t h
  rcases exec_next h with ⟨p, -, -, -, rfl⟩ | ⟨p, f, -, -, -, -, rfl⟩ | ⟨col, row, which, -, -, -, rfl⟩ |
    ⟨-, -, rfl⟩
  · exact ⟨[], by simp [State.constructed], nofun⟩
  · exact ⟨[], by simp, nofun⟩
  · exact ⟨[], by simp, nofun⟩
  · obtain ⟨items, bytes, hp⟩ := planOutcome_performed s i
    refine ⟨items, hp.trace, fun item hm => ?_⟩
    rcases hp.fromPlan item hm with ⟨bs, a, rfl, htx⟩ | ⟨d, rfl, hd⟩
    · obtain ⟨hlegal, hbound, hone, htwo, -⟩ := planOf_tx htx
      exact ⟨rfl, hlegal, hbound, hone, htwo⟩
    · exact planOf_delay hd

/-- Settles O37: of the four ways to a next state only the rejected cursor position reports an InvalidArgument. -/
theorem invalidArgumentChangesNothing : Obligations.InvalidArgumentChangesNothing := by
  intro i s t which h hr
  rcases exec_next h with ⟨p, -, -, -, rfl⟩ | ⟨p, f, -, -, -, -, rfl⟩ | ⟨col, row, which', rfl, -, -, rfl⟩ |
    ⟨-, -, rfl⟩
  · simp [State.constructed] at hr
  · simp at hr
  · exact ⟨⟨col, row, rfl⟩, rfl⟩
  · obtain ⟨r, hreport, hcases⟩ := planOutcome_reports s i
    obtain rfl : r = .error (.invalidArgument which) :=
      List.singleton_inj.1 (List.append_cancel_left (hreport.symm.trans hr))
    rcases hcases with he | ⟨k, -, he⟩
    · exact absurd he.symm (resultOf_ne_error i _)
    · rcases errorOf_transport s i k with ⟨n, he'⟩ | ⟨offset, he'⟩
      all_goals simp [he'] at he

end Sys2Proof.Machine
end

section
/-! The statements on the machine's invariant: 10_state.md R23, R33, R34 (the registers between operations),
20_memory.md R55, R58 and 00_scope.md R15 (what has been emitted). -/

namespace Sys2Proof.Machine

/-- The invariant speaks of the registers, the trace and the pins only. -/
theorem State.Inv.of_eq {s t : State} (h : s.Inv) (hlife : t.life = s.life) (hpos : t.pos = s.pos)
    (hmask : t.mask = s.mask) (hcnt : t.cnt = s.cnt) (hseq : t.seq = s.seq) (hcfg : t.cfg = s.cfg)
    (htrace : t.trace = s.trace) (hpins : t.pins = s.pins) : t.Inv := by
  obtain ⟨hidle, hfresh, hpinMap, htraceLegal, hpinsLegal, hstream⟩ := h
  constructor <;> simp only [hlife, hpos, hmask, hcnt, hseq, hcfg, htrace, hpins] <;> assumption

/-- A block that has just been constructed meets it: a valid pin map, and nothing emitted (10_state.md R30, R32). -/
theorem State.Inv.constructed {s : State} (h : s.Inv) (hl : s.life = .unconstructed) {p : PinOperands}
    (hp : PinsAccepted p) : (s.constructed p).Inv := by
  obtain ⟨htrace, hpins⟩ := h.fresh hl
  have htrace' : (s.constructed p).trace = [] := htrace
  have hpins' : (s.constructed p).pins = [] := hpins
  refine ⟨⟨rfl, rfl⟩, fun _ => ⟨htrace', hpins'⟩, fun _ => constructed_valid s hp, ?_, ?_, fun _ => ?_⟩
  · rw [htrace']; exact nofun
  · rw [hpins']; exact nofun
  · rw [htrace', hpins']; rfl

theorem pinStream_append (a b : List TraceItem) : pinStream (a ++ b) = pinStream a ++ pinStream b :=
  List.flatMap_append

/-- Each item that a performed plan adds is a legal one (30_encoding.md R90, 20_memory.md R55, R58). -/
theorem Performed.legal {i : Instr} {s t : State} {items : List TraceItem} {bytes : List Byte}
    (h : Performed i s t items bytes) (hv : PinMapValid s.pos s.mask) :
    ∀ item ∈ items, ItemLegal s.cfg s.mask item := by
  intro item hm
  rcases h.fromPlan item hm with ⟨bs, a, rfl, htx⟩ | ⟨d, rfl, -⟩
  · obtain ⟨hlength, hbound, -, -, hbytes⟩ := planOf_tx htx
    exact ⟨rfl, hlength, hbound, hbytes hv⟩
  · trivial

/-- The bytes of legal items are legal. -/
theorem pinStream_legal {c : Config} {m : PerSignal Byte} {items : List TraceItem}
    (h : ∀ item ∈ items, ItemLegal c m item) : ∀ b ∈ pinStream items, ByteLegal m b := by
  intro b hb
  obtain ⟨item, hm, hb⟩ := List.mem_flatMap.1 hb
  cases item with
  | delay => exact nomatch hb
  | tx addr bs a =>
    obtain ⟨-, -, -, hbytes⟩ := h _ hm
    exact hbytes b hb

/-- Performing an operation's plan keeps the invariant. -/
theorem State.Inv.planOutcome {s : State} (h : s.Inv) (hl : s.life = .constructed) (i : Instr) :
    (planOutcome s i).Inv := by
  obtain ⟨hlife, hpos, hmask, hcfg, -, hcnt, hseq⟩ := planOutcome_fixed s i
  obtain ⟨items, bytes, hp⟩ := planOutcome_performed s i
  have hv := h.pinMap hl
  have hlegal := hp.legal hv
  have hcnt0 : (startOf s i).cnt = 0 := by
    rcases startOf_eq s i with he | he <;> rw [he]
    · exact h.idle.1
    · rfl
  refine ⟨⟨hcnt.trans hcnt0, hseq⟩, fun hu => ?_, fun _ => by rw [hpos, hmask]; exact hv, ?_, ?_, fun hok => ?_⟩
  · exact nomatch (hl.symm.trans hlife.symm).trans hu
  · rw [hp.trace, hcfg, hmask]
    exact List.forall_mem_append.2 ⟨h.traceLegal, hlegal⟩
  · rw [hp.pins, hmask]
    exact List.forall_mem_append.2 ⟨h.pinsLegal, fun b hb => pinStream_legal hlegal b (hp.mem_stream b hb)⟩
  · rw [hp.trace] at hok
    obtain ⟨hpast, hnew⟩ := List.forall_mem_append.1 hok
    rw [hp.trace, hp.pins, pinStream_append, h.stream hpast]
    rcases hp.ending with ⟨-, -, hbytes⟩ | ⟨-, item, hlast, hfailed⟩
    · rw [hbytes]
    · exact nomatch hfailed.symm.trans (hnew item (List.mem_of_getLast? hlast))

/-- Every operation that leads to a next state keeps the invariant. -/
theorem State.Inv.exec {i : Instr} {s t : State} (hs : s.Inv) (h : exec i s = .next t) : t.Inv := by
  rcases exec_next h with ⟨p, -, hl, hp, rfl⟩ | ⟨p, f, -, -, -, -, rfl⟩ | ⟨col, row, which, -, -, -, rfl⟩ | ⟨-, hl, rfl⟩
  · exact (hs.constructed hl hp).of_eq rfl rfl rfl rfl rfl rfl rfl rfl
  · exact hs.of_eq rfl rfl rfl rfl rfl rfl rfl rfl
  · exact hs.of_eq rfl rfl rfl rfl rfl rfl rfl rfl
  · exact hs.planOutcome hl i

/-! ### The obligations -/

/-- Settles O44: a step waits, or it is an operation, and each operation keeps the invariant. -/
theorem stepKeepsTheInvariant : Obligations.StepKeepsTheInvariant := by
  intro s t hs h
  rcases step_next h with rfl | ⟨i, he⟩
  · exact hs
  · exact (hs.of_eq rfl rfl rfl rfl rfl rfl rfl rfl : s.takeRequest.Inv).exec he

/-- Settles O43: at reset nothing is constructed and nothing has been emitted. -/
theorem resetMeetsTheInvariant : Obligations.ResetMeetsTheInvariant :=
  ⟨⟨rfl, rfl⟩, fun _ => ⟨rfl, rfl⟩, nofun, nofun, nofun, fun _ => rfl⟩

end Sys2Proof.Machine
end

section
/-! The statements on the lifecycle and on runs: 10_state.md R32, 60_exceptions.md R180 and 70_reset_and_hazards.md
R202. -/

namespace Sys2Proof.Machine

/-! ### The lifecycle gate -/

/-- `construct` has no meaning in a constructed block (10_state.md R32). -/
theorem exec_construct_refused {s : State} (h : s.life = .constructed) (p : PinOperands) :
    exec (.construct p) s = .refused .alreadyConstructed := by
  simp [exec, execConstruct, h]

/-- Nothing else has one in an unconstructed block. -/
theorem exec_refused {i : Instr} {s : State} (h : s.life = .unconstructed) (hi : i.isConstruct = false) :
    exec i s = .refused .notConstructed := by
  cases i with
  | construct => exact nomatch hi
  | _ => exact whenConstructed_refuses h _

/-- A cursor position outside the geometry is reported, and nothing else happens (45_display_controller.md R152). -/
theorem exec_setCursor_error {s : State} {col row : Byte} {which : ArgName} (hs : s.life = .constructed)
    (h : cursorAddress s col row = .error which) :
    exec (.setCursor col row) s = .next (s.report (.error (.invalidArgument which))) := by
  simp only [exec, execSetCursor, whenConstructed_of hs, h]
  rfl

/-- An operation's arguments pass, or it is a `set_cursor` whose check answers a name. -/
theorem arguments_pass_or_not (i : Instr) (s : State) :
    (∀ col row, i = .setCursor col row → cursorAddress s col row = .ok (cursorSum col row)) ∨
      ∃ col row which, i = .setCursor col row ∧ cursorAddress s col row = .error which := by
  cases i with
  | setCursor col row =>
    cases hc : cursorAddress s col row with
    | ok a =>
      refine .inl fun col' row' he => ?_
      obtain ⟨rfl, rfl⟩ := Instr.setCursor.inj he
      rw [hc, cursorAddress_ok hc]
    | error which => exact .inr ⟨col, row, which, rfl, hc⟩
  | _ => exact .inl nofun

/-- In a constructed block every operation but `construct` leads to a next state, whatever the transport answers
(60_exceptions.md R180). -/
theorem exec_total {i : Instr} {s : State} (hs : s.life = .constructed) (hi : i.isConstruct = false) :
    ∃ t, exec i s = .next t := by
  rcases arguments_pass_or_not i s with ha | ⟨col, row, which, rfl, hc⟩
  · exact ⟨_, exec_eq_planOutcome hs hi ha⟩
  · exact ⟨_, exec_setCursor_error hs hc⟩

/-! ### Runs of a ready block -/

/-- A ready block takes a step and is ready again. -/
theorem State.Ready.step {s : State} (h : s.Ready) : ∃ t, step s = .next t ∧ t.Ready := by
  obtain ⟨hl, himages⟩ := h
  cases hr : s.requests with
  | nil => exact ⟨s, step_of_no_request hr, hl, himages⟩
  | cons image rest =>
    rw [hr, List.forall_mem_cons] at himages
    obtain ⟨⟨i, hd, hi⟩, hrest⟩ := himages
    obtain ⟨t, ht⟩ := exec_total (s := s.takeRequest) hl hi
    obtain ⟨hfixed, -, -, -, -, -, -, -, hrequests, -⟩ := registersChangeOnlyByTheirOperations i _ t ht
    refine ⟨t, (step_of_decode_ok hr hd).trans ht, (hfixed hi).1.trans hl, ?_⟩
    rw [hrequests, takeRequest_requests, hr]
    exact hrest

/-- A run that can take a step goes on from the next state. -/
theorem run_succ {M : Host.Core} {s t : M.State} (k : Nat) (h : M.step s = .next t) :
    M.run (k + 1) s = M.run k t := by
  rw [Host.Core.run, h]

/-- Settles O50, by induction on the number of steps: each keeps the block ready. -/
theorem constructedBlockNeverStops : Obligations.ConstructedBlockNeverStops := by
  intro k
  induction k with
  | zero => exact fun s h => ⟨s, rfl, h⟩
  | succ k ih =>
    intro s h
    obtain ⟨t, hstep, ht⟩ := h.step
    rw [run_succ (M := core) k hstep]
    exact ih t ht

/-! ### Programs -/

/-- The first step of a program that begins with `construct` (40_pinmap.md R100). -/
theorem step_construct {s : State} {p : PinOperands} {rest : List (List Byte)}
    (hr : s.requests = encode (.construct p) :: rest) (hl : s.life = .unconstructed) (hp : PinsAccepted p) :
    step s = .next ((s.takeRequest.constructed p).report .done) :=
  (step_of_decode_ok hr (decodeOfEncode _ rfl)).trans (execConstruct_accepted hl hp)

/-- After it the block is ready for the images of operations other than `construct`. -/
theorem ready_of_construct {s : State} (p : PinOperands) {image : List Byte} {ops : List Instr}
    (hr : s.requests = image :: ops.map encode) (hops : ∀ i ∈ ops, WellFormed i ∧ i.isConstruct = false) :
    ((s.takeRequest.constructed p).report .done).Ready := by
  have hrequests : ((s.takeRequest.constructed p).report .done).requests = ops.map encode := by
    simp [State.constructed, hr]
  refine ⟨rfl, fun image hm => ?_⟩
  rw [hrequests] at hm
  obtain ⟨i, hi, rfl⟩ := List.mem_map.1 hm
  obtain ⟨hwf, hc⟩ := hops i hi
  exact ⟨i, decodeOfEncode i hwf, hc⟩

/-- A program runs from an unconstructed block for any number of steps. -/
theorem run_program {s : State} {p : PinOperands} {ops : List Instr} (k : Nat)
    (hr : s.requests = (Instr.construct p :: ops).map encode) (hl : s.life = .unconstructed) (hp : PinsAccepted p)
    (hops : ∀ i ∈ ops, WellFormed i ∧ i.isConstruct = false) : ∃ t, Host.Core.run core k s = .next t := by
  cases k with
  | zero => exact ⟨s, rfl⟩
  | succ k =>
    obtain ⟨t, hrun, -⟩ := constructedBlockNeverStops k _ (ready_of_construct p hr hops)
    exact ⟨t, (run_succ (M := core) k (step_construct hr hl hp)).trans hrun⟩

/-! ### The obligations -/

/-- Settles O15: `construct` looks at `LIFE` first, and every other operation stands behind its gate. -/
theorem lifecycleRefusals : Obligations.LifecycleRefusals :=
  ⟨fun p _ h => exec_construct_refused h p, fun _ _ h hi => exec_refused h hi⟩

/-- Settles O51: the first step constructs the block, which is then ready for the operations after it. -/
theorem programsRunFromPowerOn : Obligations.ProgramsRunFromPowerOn :=
  fun _ _ _ _ k hp hops => run_program k rfl rfl hp hops

end Sys2Proof.Machine
end

section
/-! The statements on the batcher and on the operations that send bytes: 42_command_encoder.md R121, R122,
43_transaction_batcher.md R130 to R132, 45_display_controller.md R154 and 60_exceptions.md R173. -/

namespace Sys2Proof.Machine

/-! ### How `batch` cuts a buffer -/

section
variable (s : State) (bs : List Byte)

/-- The transactions are the frames in order (43_transaction_batcher.md R132). -/
theorem batch_flatten : (batch s bs).2.flatten = bs.flatMap (frame s.mask s.lit true) := by
  refine batch_induction s (fun bs txs => txs.flatten = bs.flatMap (frame s.mask s.lit true)) rfl (fun bs _ _ => ?_)
    (fun bs _ ih => ?_) bs
  · exact List.append_nil _
  · rw [List.flatten_cons, ih, ← List.flatMap_append, List.take_append_drop]

/-- All transactions but the last hold `K` instructions. -/
theorem batch_dropLast_length : ∀ x ∈ (batch s bs).2.dropLast, x.length = 4 * perTransaction s.cfg := by
  refine batch_induction s (fun _ txs => ∀ x ∈ txs.dropLast, x.length = 4 * perTransaction s.cfg) nofun
    (fun bs _ _ => nofun) (fun bs hlt ih x hx => ?_) bs
  cases hrest : (batch s (bs.drop (perTransaction s.cfg))).2 with
  | nil => rw [hrest] at hx; exact nomatch hx
  | cons y ys =>
    rw [hrest] at hx ih
    rw [List.dropLast_cons_cons, List.mem_cons] at hx
    rcases hx with rfl | hx
    · rw [flatMap_frame_length, List.length_take, Nat.min_eq_left (Nat.le_of_lt hlt)]
    · exact ih x hx

/-- There are `ceil(len / K)` transactions. -/
theorem batch_length :
    (batch s bs).2.length = (bs.length + perTransaction s.cfg - 1) / perTransaction s.cfg := by
  have hK := perTransaction_pos s.cfg
  refine batch_induction s
    (fun bs txs => txs.length = (bs.length + perTransaction s.cfg - 1) / perTransaction s.cfg) ?_ (fun bs hne hle => ?_)
    (fun bs hlt ih => ?_) bs
  · exact (Nat.div_eq_of_lt (by simp; omega)).symm
  · have := List.length_pos_of_ne_nil hne
    rw [List.length_singleton]
    exact (Nat.div_eq_of_lt_le (by omega) (by omega)).symm
  · rw [List.length_cons, ih, List.length_drop, ← Nat.add_div_right _ hK]
    congr 1
    omega

theorem batch_length_le : (batch s bs).2.length ≤ bs.length := by
  refine batch_induction s (fun bs txs => txs.length ≤ bs.length) (Nat.le_refl 0)
    (fun bs hne _ => List.length_pos_of_ne_nil hne) (fun bs hlt ih => ?_) bs
  have hK := perTransaction_pos s.cfg
  rw [List.length_drop] at ih
  rw [List.length_cons]
  omega

/-- Transaction `j` begins with the frame of element `j * K` (43_transaction_batcher.md R132, 60_exceptions.md R173). -/
theorem batch_getElem_take {j : Nat} {x : List Byte} (hx : (batch s bs).2[j]? = some x) :
    ∃ b, bs[j * perTransaction s.cfg]? = some b ∧ x.take 4 = frame s.mask s.lit true b := by
  have hfirst : ∀ part : List Byte, part ≠ [] →
      ∃ b, part[0]? = some b ∧ (part.flatMap (frame s.mask s.lit true)).take 4 = frame s.mask s.lit true b := by
    intro part hne
    obtain ⟨b, rest, rfl⟩ := List.exists_cons_of_ne_nil hne
    exact ⟨b, rfl, by rw [List.flatMap_cons, List.take_left' (frame_length ..)]⟩
  revert j x
  refine batch_induction s (fun bs txs => ∀ {j : Nat} {x : List Byte}, txs[j]? = some x →
    ∃ b, bs[j * perTransaction s.cfg]? = some b ∧ x.take 4 = frame s.mask s.lit true b) nofun
    (fun bs hne _ j x hx => ?_) (fun bs hlt ih j x hx => ?_) bs
  · obtain ⟨rfl, rfl⟩ : j = 0 ∧ bs.flatMap (frame s.mask s.lit true) = x := by
      simpa [List.getElem?_singleton] using hx
    rw [Nat.zero_mul]
    exact hfirst bs hne
  · have hK := perTransaction_pos s.cfg
    cases j with
    | zero =>
      obtain rfl : (bs.take (perTransaction s.cfg)).flatMap (frame s.mask s.lit true) = x := by simpa using hx
      obtain ⟨b, hb, htake⟩ := hfirst (bs.take (perTransaction s.cfg)) (List.ne_nil_of_length_pos (by simp; omega))
      rw [List.getElem?_take_of_lt hK] at hb
      exact ⟨b, by rwa [Nat.zero_mul], htake⟩
    | succ j =>
      obtain ⟨b, hb, htake⟩ := ih (j := j) (by simpa using hx)
      rw [List.getElem?_drop] at hb
      exact ⟨b, by rwa [Nat.succ_mul, Nat.add_comm], htake⟩

end

/-! ### Plans of listed replies as whole next states -/

/-- Replies that are all `ok` begin with as many `ok`s as are needed. -/
theorem replies_eq_replicate_append {replies : List Reply} (hok : ∀ r ∈ replies, r = .ok) {n : Nat}
    (hn : n ≤ replies.length) : replies = List.replicate n .ok ++ replies.drop n := by
  have htake : replies.take n = List.replicate n .ok :=
    List.eq_replicate_iff.2 ⟨List.length_take_of_le hn, fun r hr => hok r (List.mem_of_mem_take hr)⟩
  rw [← htake, List.take_append_drop]

/-- A plan of transactions that are all answered `ok` (00_scope.md R13). -/
theorem runPlan_txs_ok {s : State} {txs : List (List Byte)} {rest : List Reply} (E : Nat → OpError) (r : Report)
    (h : s.replies = List.replicate txs.length .ok ++ rest) :
    runPlan E (txs.map .tx) r s = .next
      { s with
        seq := none, replies := rest
        trace := s.trace ++ txs.map (.tx s.cfg.i2cAddr · .ok)
        pins := s.pins ++ txs.flatten
        reports := s.reports ++ [r] } := by
  rw [runPlan_eq, perform, performFrom_txs_ok E txs 0 (s.setSeq (some 0)) rest h]
  rfl

/-- A plan of transactions of which the one at `j` fails after `n` of its bytes (60_exceptions.md R178). -/
theorem runPlan_txs_fail {s : State} {txs : List (List Byte)} {j n : Nat} {x : List Byte} {rest : List Reply}
    (E : Nat → OpError) (r : Report) (hx : txs[j]? = some x) (h : s.replies = List.replicate j .ok ++ .fail n :: rest) :
    runPlan E (txs.map .tx) r s = .next
      { s with
        seq := none, replies := rest
        trace := s.trace ++ (txs.take j).map (.tx s.cfg.i2cAddr · .ok) ++ [.tx s.cfg.i2cAddr x .fail]
        pins := s.pins ++ (txs.take j).flatten ++ x.take n
        reports := s.reports ++ [.error (E j)] } := by
  rw [runPlan_eq, perform, performFrom_txs_fail E txs 0 j n x (s.setSeq (some 0)) rest hx h, Nat.zero_add]
  rfl

/-- The plan of one transaction depends on its one error alone. -/
theorem runPlan_tx_congr {E E' : Nat → OpError} (h : E 0 = E' 0) (bytes : List Byte) (r : Report) (s : State) :
    runPlan E [.tx bytes] r s = runPlan E' [.tx bytes] r s := by
  rw [runPlan_eq, runPlan_eq, perform_tx, perform_tx, h]

/-! ### The operations in a constructed block -/

section
variable {s : State} (hs : s.life = .constructed)
include hs

theorem exec_writeBytes (buffer : List Byte) :
    exec (.writeBytes buffer) s =
      runPlan (dataTransportError s.cfg) ((batch s buffer).2.map .tx) (.count buffer.length) (s.setCnt 0) := by
  rw [← batch_state s buffer]
  exact whenConstructed_of hs _

theorem exec_createGlyph (slot : Byte) (bitmap : List Byte) :
    exec (.createGlyph slot bitmap) s =
      runPlan (glyphTransportError s.cfg)
        ((frame s.mask s.lit false (glyphByte slot) :: (batch s bitmap).2).map .tx) .done (s.setCnt 0) := by
  rw [← batch_state s bitmap]
  exact whenConstructed_of hs _

/-- `create_glyph` with every transaction answered `ok`, for a bitmap of any length (log 22). -/
theorem exec_createGlyph_of_ok {slot : Byte} {bitmap : List Byte} {rest : List Reply}
    (h : s.replies = List.replicate ((batch s bitmap).2.length + 1) .ok ++ rest) :
    exec (.createGlyph slot bitmap) s = .next
      { s with
        cnt := 0, seq := none, replies := rest
        trace := s.trace ++ .tx s.cfg.i2cAddr (frame s.mask s.lit false (glyphByte slot)) .ok ::
          (batch s bitmap).2.map (.tx s.cfg.i2cAddr · .ok)
        pins := s.pins ++ frame s.mask s.lit false (glyphByte slot) ++ bitmap.flatMap (frame s.mask s.lit true)
        reports := s.reports ++ [.done] } := by
  have hplan := runPlan_txs_ok (s := s.setCnt 0)
    (txs := frame s.mask s.lit false (glyphByte slot) :: (batch s bitmap).2) (glyphTransportError s.cfg) .done h
  rw [exec_createGlyph hs, hplan, List.flatten_cons, batch_flatten, List.append_assoc]
  rfl

end

/-- The address command of a slot: `0x40` and the slot's low three bits (45_display_controller.md R154). -/
theorem glyphByte_toNat (slot : Byte) : (glyphByte slot).toNat = 0x40 + 8 * (slot.toNat % 8) := by
  revert slot; decide

/-- The error of `create_glyph`'s transaction `j` (60_exceptions.md R173). -/
theorem glyphTransportError_eq (c : Config) (j : Nat) :
    glyphTransportError c j = .transport (if j = 0 then 0 else (j - 1) * perTransaction c) := by
  cases j <;> simp [glyphTransportError]

/-! ### The obligations -/

/-- Settles O25: the transactions are runs of frames, and all but the last are full. -/
theorem batchFillsTransactions : Obligations.BatchFillsTransactions := by
  intro s bs
  refine ⟨batch_flatten s bs, by rw [batch_flatten, flatMap_frame_length], fun x hx => ?_, perTransaction_le s.cfg,
    batch_dropLast_length s bs⟩
  obtain ⟨part, hne, hle, rfl⟩ := batch_mem hx
  have := List.length_pos_of_ne_nil hne
  rw [flatMap_frame_length]
  exact ⟨by omega, Nat.dvd_mul_right 4 _, Nat.mul_le_mul_left 4 hle⟩

/-- Settles O26: the number of transactions is a quotient, and transaction `j` starts `j * K` elements in. -/
theorem batchCutsEveryKInstructions : Obligations.BatchCutsEveryKInstructions := by
  intro s bs
  refine ⟨batch_length s bs, ?_, fun j x hx => ?_⟩
  · have hK := perTransaction_pos s.cfg
    rw [batch_length, Nat.lt_iff_add_one_le, Nat.le_div_iff_mul_le hK]
    omega
  · obtain ⟨b, hb, htake⟩ := batch_getElem_take s bs hx
    exact ⟨b, hb, htake, rfl⟩

/-- Settles O22: `send_raw_command` is a plan of one transaction. -/
theorem sendRawCommandSendsTheByte : Obligations.SendRawCommandSendsTheByte := fun byte s hs =>
  (whenConstructed_of hs _).trans (runPlan_tx s (frame s.mask s.lit false byte) .done)

/-- Settles O23: `write_byte` is a plan of one transaction. -/
theorem writeByteSendsDataAndReturnsOne : Obligations.WriteByteSendsDataAndReturnsOne := fun byte s hs =>
  (whenConstructed_of hs _).trans (runPlan_tx s (frame s.mask s.lit true byte) (.count 1))

/-- Settles O24: one element fits a transaction for every frame bound, and its error has offset 0 as well. -/
theorem writeByteIsOneElementWriteBytes : Obligations.WriteByteIsOneElementWriteBytes := by
  intro byte s hcnt
  have hbatch : (batch s [byte]).2 = [frame s.mask s.lit true byte] :=
    batch_fits (List.cons_ne_nil _ _) (perTransaction_pos s.cfg)
  have hstate : s.setCnt 0 = s := by rw [← hcnt]; rfl
  have herror : singleTransportError 0 = dataTransportError s.cfg 0 := by
    simp [singleTransportError, dataTransportError]
  have hplan : runPlan singleTransportError [s.data byte] (.count 1) s =
      runPlan (dataTransportError s.cfg) ((batch s [byte]).2.map .tx) (.count 1) (batch s [byte]).1 := by
    rw [batch_state, hstate, hbatch]
    exact runPlan_tx_congr herror _ _ _
  exact congrArg (whenConstructed s) hplan

/-- Settles O27: the plan is the batch's transactions, whose bytes are the frames of the buffer. -/
theorem writeBytesSendsTheBuffer : Obligations.WriteBytesSendsTheBuffer := by
  intro buffer s rest hs h
  rw [exec_writeBytes hs, runPlan_txs_ok (s := s.setCnt 0) _ _ h, batch_flatten]
  rfl

/-- Settles O28: the plan is the batch's transactions, of which the one at `j` fails. -/
theorem writeBytesStopsAtAFailure : Obligations.WriteBytesStopsAtAFailure := by
  intro buffer s j n x rest hs hx h
  rw [exec_writeBytes hs, runPlan_txs_fail (s := s.setCnt 0) _ _ hx h]
  rfl

/-- Settles O29: the batch of no bytes has no transactions. -/
theorem writeBytesOfNothingEmitsNothing : Obligations.WriteBytesOfNothingEmitsNothing := by
  intro s hs
  rw [writeBytesSendsTheBuffer [] s s.replies hs rfl]
  simp

/-- Settles O30: the pins see the frames of the buffer, and falling edges read frames back. -/
theorem writtenTextIsReadBack : Obligations.WrittenTextIsReadBack := by
  intro buffer s hinv hs hok hlen
  have hreplies := replies_eq_replicate_append hok ((batch_length_le s buffer).trans hlen)
  refine ⟨_, buffer.flatMap (frame s.mask s.lit true), writeBytesSendsTheBuffer buffer s _ hs hreplies, rfl, rfl,
    ?_, ?_⟩
  · exact flatMap_frame_length s.mask s.lit true buffer
  · exact fallingEdgesReadTheFrames s.pos s.mask (hinv.pinMap hs) s.lit true s.latch buffer

/-- Settles O38: the plan is the address command and the batch's transactions. -/
theorem createGlyphProgramsTheSlot : Obligations.CreateGlyphProgramsTheSlot := by
  intro slot bitmap s rest hs hwf h
  have hlen : bitmap.length = 8 := eq_of_beq hwf
  refine ⟨glyphByte slot, glyphByte_toNat slot, ?_, ?_⟩
  · rw [List.length_append, frame_length, flatMap_frame_length, hlen]
  · exact exec_createGlyph_of_ok hs h

/-- Settles O39: the plan is the address command and the batch's transactions, of which the one at `j` fails. -/
theorem createGlyphStopsAtAFailure : Obligations.CreateGlyphStopsAtAFailure := by
  intro slot bitmap s j n x rest hs hx h txs
  have hplan := runPlan_txs_fail (s := s.setCnt 0) (glyphTransportError s.cfg) .done hx h
  rw [glyphTransportError_eq] at hplan
  exact (exec_createGlyph hs slot bitmap).trans hplan

end Sys2Proof.Machine
end

section
/-! The statements on the transport (20_memory.md R52, 00_scope.md R15) and on `construct` (40_pinmap.md R100 to
R102). -/

namespace Sys2Proof.Machine

/-! ### What `construct` writes -/

/-- `POS` holds the operands, when they are in range (40_pinmap.md R100). -/
theorem positionOf_map_val {o : Option Byte} (h : ∀ b, o = some b → b.toNat ≤ 7) :
    (positionOf o).map Fin.val = o.map BitVec.toNat := by
  cases o with
  | none => rfl
  | some b => exact positionOf_val (h b rfl)

/-- `MASK` of a present signal is `1 << position` (40_pinmap.md R100). -/
theorem maskOf_positionOf {b : Byte} (h : b.toNat ≤ 7) : maskOf (positionOf (some b)) = 1#8 <<< b.toNat := by
  have hval : b.toNat % 8 = b.toNat := Nat.mod_eq_of_lt (Nat.lt_succ_of_le h)
  simp [maskOf, positionOf, Fin.ofNat, hval]

/-- The default mapping passes the checks (40_pinmap.md R102). -/
theorem pinsAccepted_presetDefault : PinsAccepted presetDefault := (pinFaults_eq_nil presetDefault).1 (by decide)

/-! ### The obligations -/

/-- Settles O9: `transact`'s effect on each field, and the reply that is used. -/
theorem transactionIsRecordedAndDelivered : Obligations.TransactionIsRecordedAndDelivered := by
  intro s bytes
  refine ⟨transact_trace s bytes, fun hok => ?_, fun _ => ?_, fun n rest hr => ?_, fun rest hr => ?_, ?_⟩
  · rw [transact_pins, replyDelivers_of_ok bytes hok]
  · obtain ⟨n, hn⟩ := replyDelivers_sublist bytes s.nextReply
    exact ⟨n, by rw [transact_pins, hn]⟩
  · exact ⟨nextAnswer_cons s hr, by rw [transact_pins, nextReply_cons s hr]; rfl, by rw [transact_replies, hr]; rfl⟩
  · exact ⟨nextAnswer_cons s hr, by rw [transact_replies, hr]; rfl⟩
  · simp

/-- Settles O10: the positions and masks that accepted operands leave are those of the operands. -/
theorem constructBuildsThePinMap : Obligations.ConstructBuildsThePinMap := by
  intro p s hs hp
  have hrange := hp.1
  refine ⟨(s.constructed p).pos, (s.constructed p).mask, fun t => ?_, fun t => ?_, execConstruct_accepted hs hp⟩
  · rw [constructed_get_pos, positionOf_map_val (hrange t)]
  · rw [constructed_get_mask]
    cases ho : (positionOperands p).get t with
    | none => rfl
    | some b => exact maskOf_positionOf (hrange t b ho)

/-- Settles O11: the reported fault is one of the fault list, in which range faults come alone. -/
theorem constructRejectsBadPins : Obligations.ConstructRejectsBadPins := by
  intro p s hs hp
  obtain ⟨f, hf, hexec⟩ := execConstruct_rejected hs hp
  refine ⟨f, hexec, ?_⟩
  rcases mem_pinFaults hf with ⟨t, b, rfl, hb, hlt⟩ | ⟨hrange, t, u, rfl, hne, hpresent, hsame⟩
  · exact ⟨b, hb, hlt⟩
  · exact ⟨hne, hpresent, hsame, hrange⟩

/-- Settles O13: the default mapping is accepted, and its positions and masks compute. -/
theorem constructDefaultSucceeds : Obligations.ConstructDefaultSucceeds := fun _ hs =>
  execConstruct_accepted hs pinsAccepted_presetDefault

end Sys2Proof.Machine
end

section
/-! The statements on repeated flag operations (41_display_state.md R114) and on the one-flag pseudo-operations
(30_encoding.md R75). -/

namespace Sys2Proof.Machine

/-! ### A register write and a transaction, twice -/

/-- What a flag operation leaves: its write, one item of the trace, and everything that a frame is computed from. -/
theorem runPlan_set_tx_next {s t : State} {w : FieldWrite} {bytes : List Byte} {r : Report}
    (h : runPlan singleTransportError [.set w, .tx bytes] r s = .next t) :
    t.dc = (s.write w).dc ∧ t.em = (s.write w).em ∧ t.bl = (s.write w).bl ∧ t.mask = s.mask ∧ t.cfg = s.cfg ∧
      t.trace = s.trace ++ [.tx s.cfg.i2cAddr bytes s.nextAnswer] := by
  obtain rfl := Host.Outcome.next.inj ((runPlan_set_tx s w bytes r).symm.trans h)
  simp

/-- The same plan performed twice: the second write finds the register as it leaves it (41_display_state.md R114). -/
theorem runPlan_set_tx_twice {s t u : State} {w : FieldWrite} {bytes : List Byte} {r : Report}
    (ht : runPlan singleTransportError [.set w, .tx bytes] r s = .next t)
    (hu : runPlan singleTransportError [.set w, .tx bytes] r t = .next u) :
    u.dc = t.dc ∧ u.em = t.em ∧ ∃ bytes a b, t.trace = s.trace ++ [.tx s.cfg.i2cAddr bytes a] ∧
      u.trace = t.trace ++ [.tx s.cfg.i2cAddr bytes b] := by
  obtain ⟨htdc, htem, -, -, htcfg, httrace⟩ := runPlan_set_tx_next ht
  obtain ⟨hudc, huem, -, -, -, hutrace⟩ := runPlan_set_tx_next hu
  refine ⟨?_, ?_, bytes, _, _, httrace, htcfg ▸ hutrace⟩
  · cases w <;> simp_all
  · cases w <;> simp_all

/-- A display-control operation of which the second run gives the same group. -/
theorem sendDc_twice {s t u : State} {d d' : BitVec 3} (ht : sendDc s d = .next t) (hu : sendDc t d' = .next u)
    (hd : t.dc = d → d' = d) :
    u.dc = t.dc ∧ u.em = t.em ∧ ∃ bytes a b, t.trace = s.trace ++ [.tx s.cfg.i2cAddr bytes a] ∧
      u.trace = t.trace ++ [.tx s.cfg.i2cAddr bytes b] := by
  obtain ⟨hdc, -, hmask, hlit, -⟩ := sendDc_next ht
  have hcmd : t.cmd (dcByte d') = s.cmd (dcByte d) := by rw [hd hdc, cmd_eq, cmd_eq, hmask, hlit]
  rw [sendDc, hcmd, hd hdc] at hu
  exact runPlan_set_tx_twice ht hu

/-! ### The bits of the entry-mode group -/

section
variable (em : BitVec 2)

theorem emOf_ltr : emOf .ltr (emAutoscroll em) = em ||| 0b10#2 := by revert em; decide
theorem emOf_rtl : emOf .rtl (emAutoscroll em) = em &&& 0b01#2 := by revert em; decide
theorem emOf_autoscroll_on : emOf (emDir em) true = em ||| 0b01#2 := by revert em; decide
theorem emOf_autoscroll_off : emOf (emDir em) false = em &&& 0b10#2 := by revert em; decide

end

theorem dcWithDisp_true (dc : BitVec 3) : dcWithDisp dc true = dc ||| 0b100#3 := by revert dc; decide

/-- `entry_mode` leaves the group of its operands. -/
theorem exec_entryMode_em {s : State} (hs : s.life = .constructed) (direction : EntryDir) (autoscroll : Bool) :
    ∃ t, exec (.entryMode direction autoscroll) s = .next t ∧ t.em = emOf direction autoscroll :=
  ⟨_, exec_entryMode hs direction autoscroll, by simp⟩

/-! ### The obligations -/

/-- Settles O20: with the group as the first run left it, each operation's plan is the first run's. -/
theorem repeatedToggleStillSends : Obligations.RepeatedToggleStillSends := by
  rintro i s t u (⟨on, rfl | rfl | rfl⟩ | ⟨direction, autoscroll, rfl⟩) ht hu
  all_goals
    obtain ⟨-, ht'⟩ := whenConstructed_next ht
    obtain ⟨-, hu'⟩ := whenConstructed_next hu
  · exact sendDc_twice ht' hu' fun hd => by rw [hd, dcWithDisp_twice]
  · exact sendDc_twice ht' hu' fun hd => by rw [hd, dcWithCur_twice]
  · exact sendDc_twice ht' hu' fun hd => by rw [hd, dcWithBlink_twice]
  · obtain ⟨-, -, hbl, hmask, -⟩ := runPlan_set_tx_next ht'
    have hcmd : ∀ v, t.cmd v = s.cmd v := fun v => by rw [cmd_eq, cmd_eq, State.lit, hbl, hmask]; rfl
    rw [hcmd] at hu'
    exact runPlan_set_tx_twice ht' hu'

/-- Settles O21: the operands of the pseudo-operations hold the other flag as it stands. -/
theorem pseudoOperationsKeepTheOtherFlag : Obligations.PseudoOperationsKeepTheOtherFlag := by
  intro s hs
  refine ⟨?_, ?_, ?_, ?_, ?_⟩
  · rw [← emOf_ltr]; exact exec_entryMode_em hs _ _
  · rw [← emOf_rtl]; exact exec_entryMode_em hs _ _
  · rw [← emOf_autoscroll_on]; exact exec_entryMode_em hs _ _
  · rw [← emOf_autoscroll_off]; exact exec_entryMode_em hs _ _
  · rw [← dcWithDisp_true]; exact ⟨_, (exec_display hs true).trans (sendDc_eq s _), by simp⟩

end Sys2Proof.Machine
end

section
/-! The statements on the display controller's operations: 45_display_controller.md R150 (`clear`), R152 (`set_cursor`),
R156 (`scroll`) and R157 (`set_backlight`). -/

namespace Sys2Proof.Machine

/-! ### The cursor address -/

/-- `ROW_OFFSET` as the table of 20_memory.md R51. -/
theorem rowOffset_eq {row : Byte} (h : row.toNat ≤ 3) : rowOffset row = [0x00, 0x40, 0x14, 0x54].getD row.toNat 0 := by
  unfold rowOffset
  generalize row.toNat = r at h
  interval_cases r <;> rfl

section
variable {s : State} {col row : Byte}

/-- The row is checked first (60_exceptions.md R176). -/
theorem cursorAddress_row (h : 3 < row.toNat ∨ s.rows.toNat ≤ row.toNat) : cursorAddress s col row = .error .row :=
  if_pos h

theorem cursorAddress_col (h3 : row.toNat ≤ 3) (hrow : row.toNat < s.rows.toNat)
    (h : s.cols.toNat ≤ col.toNat ∨ 0x7F < cursorSum col row) : cursorAddress s col row = .error .col := by
  have hgood : ¬ (3 < row.toNat ∨ s.rows.toNat ≤ row.toNat) := by omega
  rw [cursorAddress, if_neg hgood]
  rcases h with h | h
  · exact if_pos h
  · rw [if_pos h, ite_self]

theorem cursorAddress_inside (h3 : row.toNat ≤ 3) (hrow : row.toNat < s.rows.toNat) (hcol : col.toNat < s.cols.toNat)
    (ha : cursorSum col row ≤ 0x7F) : cursorAddress s col row = .ok (cursorSum col row) := by
  have hgood : ¬ (3 < row.toNat ∨ s.rows.toNat ≤ row.toNat) := by omega
  rw [cursorAddress, if_neg hgood, if_neg (by omega), if_neg (by omega)]

end

/-- For an address of seven bits `0x80 | a` is a sum (30_encoding.md R83). -/
theorem cursorByte_eq {a : Nat} (h : a ≤ 0x7F) : cursorByte a = BitVec.ofNat 8 (0x80 + a) := by
  have hall : ∀ b : Fin 0x80, cursorByte b.val = BitVec.ofNat 8 (0x80 + b.val) := by decide
  exact hall ⟨a, Nat.lt_succ_of_le h⟩

/-! ### The re-latch byte -/

theorem relatchByte_eq_or (m : PerSignal Byte) (level : Byte) :
    relatchByte m level = (if 0 < level.toNat then m.bl else 0) ||| m.rs := by
  simp [relatchByte, base, maskIf, isLit]

/-- The re-latch byte meets the backlight mask when the signal is present and lit (10_state.md R36). -/
theorem relatchByte_and_bl {pos : PerSignal (Option (Fin 8))} {m : PerSignal Byte} (h : PinMapValid pos m)
    (level : Byte) : relatchByte m level &&& m.bl ≠ 0 ↔ pos.bl ≠ none ∧ 0 < level.toNat := by
  rw [relatchByte_eq, ← decide_eq_true_iff (p := 0 < level.toNat)]
  exact levelByte_and_mask h (isLit level) true false 0 .bl

/-- `set_backlight` in a constructed block: the level, which stays, and the re-latch byte (45_display_controller.md
R157). -/
theorem exec_setBacklight {s : State} (hs : s.life = .constructed) (level : Byte) :
    exec (.setBacklight level) s = .next
      { ({ s with bl := level } : State).transact [relatchByte s.mask level] with
        seq := none
        reports := s.reports ++ [if s.nextAnswer = .ok then .done else .error (.transport 0)] } :=
  (whenConstructed_of hs _).trans (runPlan_set_tx s (.bl level) [relatchByte s.mask level] .done)

/-! ### The obligations -/

/-- Settles O33: the plan of `clear` is a transaction and a delay. -/
theorem clearSendsAndSettles : Obligations.ClearSendsAndSettles := fun s hs =>
  (whenConstructed_of hs _).trans (runPlan_tx_delay s (frame s.mask s.lit false 0x01) .settle .done)

/-- Settles O35: the argument checks answer the row, or the column, and nothing is performed. -/
theorem setCursorRejectsOutsideTheGeometry : Obligations.SetCursorRejectsOutsideTheGeometry := by
  refine fun col row s hs => ⟨fun h => exec_setCursor_error hs (cursorAddress_row h), fun h3 hrow h => ?_⟩
  rw [← rowOffset_eq h3] at h
  exact exec_setCursor_error hs (cursorAddress_col h3 hrow h)

/-- Settles O36: the checks pass, and the plan is one command. -/
theorem setCursorSendsTheAddress : Obligations.SetCursorSendsTheAddress := by
  rintro col row s a hs h3 hrow hcol rfl ha
  rw [← rowOffset_eq h3] at ha ⊢
  simp only [exec, execSetCursor, whenConstructed_of hs, cursorAddress_inside h3 hrow hcol ha]
  rw [← cursorByte_eq ha]
  exact runPlan_tx s (frame s.mask s.lit false (cursorByte (cursorSum col row))) .done

/-- Settles O40: the plan of `scroll` is one command, the parameter's. -/
theorem scrollSendsItsParameter : Obligations.ScrollSendsItsParameter := by
  intro direction s hs
  have hplan := runPlan_tx s (frame s.mask s.lit false (scrollByte s.cfg direction)) .done
  refine (whenConstructed_of hs _).trans (hplan.trans ?_)
  cases direction <;> rfl

/-- Settles O41: `set_backlight` is a register write and a transaction of the re-latch byte. -/
theorem setBacklightSendsTheRelatchByte : Obligations.SetBacklightSendsTheRelatchByte := fun level s hs => by
  rw [← relatchByte_eq_or]
  exact exec_setBacklight hs level

/-- Settles O42: the re-latch byte is the pins' last, and with `en` low before it there is no edge. -/
theorem backlightPinFollowsAtOnce : Obligations.BacklightPinFollowsAtOnce := by
  intro level s hs hv hok
  have hdelivers : replyDelivers [relatchByte s.mask level] s.nextReply = [relatchByte s.mask level] :=
    replyDelivers_of_ok _ hok
  have hpins : (({ s with bl := level } : State).transact [relatchByte s.mask level]).pins =
      s.pins ++ [relatchByte s.mask level] := (transact_pins _ _).trans (congrArg (s.pins ++ ·) hdelivers)
  refine ⟨_, [relatchByte s.mask level], exec_setBacklight hs level, hpins, ?_, fun hlow => ?_⟩
  · rw [State.backlightPin, decide_eq_true_iff, State.latch]
    simp only [hpins, transact_mask, List.getLastD_concat]
    exact relatchByte_and_bl hv level
  · simp only [latchedNibbles, latchedAt_low _ _ _ _ hlow, List.append_nil]

end Sys2Proof.Machine
end

section
/-! The statements on `initDisplay`: 44_init_sequence.md R141 (the handshake) and R142 (its failures). Its plan mixes
register writes, delays and transactions; what a plan whose transactions are answered `ok` has done is said once, for
every plan, and then read off `initPlan`. -/

namespace Sys2Proof.Machine

/-! ### Plans whose transactions are answered `ok` -/

/-- The registers after the writes of a plan. -/
def State.afterWrites (s : State) : List PlanStep → State
  | [] => s
  | .set w :: rest => (s.write w).afterWrites rest
  | .tx _ :: rest => s.afterWrites rest
  | .delay _ :: rest => s.afterWrites rest

/-- The trace of a plan whose transactions are answered `ok`. -/
def okItems (c : Config) : List PlanStep → List TraceItem
  | [] => []
  | .set _ :: rest => okItems c rest
  | .tx bytes :: rest => .tx c.i2cAddr bytes .ok :: okItems c rest
  | .delay d :: rest => .delay d (delayMicros c d) :: okItems c rest

/-- Its pin stream is the transactions' bytes (00_scope.md R15). -/
theorem pinStream_okItems (c : Config) : ∀ plan : List PlanStep, pinStream (okItems c plan) = (planTxs plan).flatten
  | [] => rfl
  | .set _ :: rest => pinStream_okItems c rest
  | .tx bytes :: rest => congrArg (bytes ++ ·) (pinStream_okItems c rest)
  | .delay _ :: rest => pinStream_okItems c rest

/-- `SEQ` has moved on by the length of the plan performed (10_state.md R34). -/
def State.afterOk (s : State) (plan : List PlanStep) (more : List Reply) : State :=
  { s.afterWrites plan with
    seq := s.seq.map (· + plan.length), replies := more
    trace := s.trace ++ okItems s.cfg plan
    pins := s.pins ++ (planTxs plan).flatten }

theorem afterWrites_cfg : ∀ (plan : List PlanStep) (s : State), (s.afterWrites plan).cfg = s.cfg
  | [], _ => rfl
  | .set w :: rest, s => (afterWrites_cfg rest (s.write w)).trans (write_cfg s w)
  | .tx _ :: rest, s => afterWrites_cfg rest s
  | .delay _ :: rest, s => afterWrites_cfg rest s

theorem afterWrites_reports : ∀ (plan : List PlanStep) (s : State), (s.afterWrites plan).reports = s.reports
  | [], _ => rfl
  | .set w :: rest, s => (afterWrites_reports rest (s.write w)).trans (write_reports s w)
  | .tx _ :: rest, s => afterWrites_reports rest s
  | .delay _ :: rest, s => afterWrites_reports rest s

/-- Writes and records do not meet. -/
theorem afterWrites_with (seq : Option Nat) (replies : List Reply) (trace : List TraceItem) (pins : List Byte) :
    ∀ (plan : List PlanStep) (s : State),
      ({ s with seq := seq, replies := replies, trace := trace, pins := pins } : State).afterWrites plan =
        { s.afterWrites plan with seq := seq, replies := replies, trace := trace, pins := pins }
  | [], _ => rfl
  | .set w :: rest, s => by
    have hwrite : ({ s with seq := seq, replies := replies, trace := trace, pins := pins } : State).write w =
        { s.write w with seq := seq, replies := replies, trace := trace, pins := pins } := by cases w <;> rfl
    rw [State.afterWrites, hwrite, afterWrites_with seq replies trace pins rest]
    rfl
  | .tx _ :: rest, s => afterWrites_with seq replies trace pins rest s
  | .delay _ :: rest, s => afterWrites_with seq replies trace pins rest s

/-- A transaction whose listed reply is `ok`. -/
theorem transact_of_ok {s : State} {more : List Reply} (h : s.replies = .ok :: more) (bytes : List Byte) :
    s.transact bytes =
      { s with
        replies := more, trace := s.trace ++ [.tx s.cfg.i2cAddr bytes .ok], pins := s.pins ++ bytes } := by
  simp [State.ext_iff, h, nextAnswer_cons s h, nextReply_cons s h, replyAnswer, replyDelivers]

/-- A transaction whose listed reply is a failure after `n` bytes. -/
theorem transact_of_fail {s : State} {n : Nat} {more : List Reply} (h : s.replies = .fail n :: more)
    (bytes : List Byte) :
    s.transact bytes =
      { s with
        replies := more, trace := s.trace ++ [.tx s.cfg.i2cAddr bytes .fail], pins := s.pins ++ bytes.take n } := by
  simp [State.ext_iff, h, nextAnswer_cons s h, nextReply_cons s h, replyAnswer, replyDelivers]

/-- The state after the rest of a plan, from a state `t` whose registers are those of `s` and whose records are its
own. -/
theorem afterOk_of_records {s t : State} (plan : List PlanStep) (more : List Reply)
    (h : t = { s with seq := t.seq, replies := t.replies, trace := t.trace, pins := t.pins }) :
    t.afterOk plan more =
      { s.afterWrites plan with
        seq := t.seq.map (· + plan.length), replies := more
        trace := t.trace ++ okItems s.cfg plan
        pins := t.pins ++ (planTxs plan).flatten } := by
  have hcfg : t.cfg = s.cfg := by rw [h]
  rw [State.afterOk, hcfg, h, afterWrites_with]

theorem map_succ_map_add (o : Option Nat) (n : Nat) : (o.map (· + 1)).map (· + n) = o.map (· + (n + 1)) := by
  rw [Option.map_map]
  congr 1
  funext k
  exact Nat.add_right_comm k 1 n

section
variable (s : State) (rest : List PlanStep) (more : List Reply)

theorem afterOk_set (w : FieldWrite) : (s.write w).advance.afterOk rest more = s.afterOk (.set w :: rest) more := by
  rw [afterOk_of_records (s := s.write w) rest more rfl]
  simp [-Option.map_map, map_succ_map_add, State.afterOk, State.afterWrites, okItems, planTxs]

theorem afterOk_delay (d : DelayParam) : (s.wait d).advance.afterOk rest more = s.afterOk (.delay d :: rest) more := by
  rw [afterOk_of_records (s := s) rest more rfl]
  simp [-Option.map_map, map_succ_map_add, State.afterOk, State.afterWrites, okItems, planTxs]

theorem afterOk_tx {s : State} {replies : List Reply} (h : s.replies = .ok :: replies) (bytes : List Byte) :
    (s.transact bytes).advance.afterOk rest more = s.afterOk (.tx bytes :: rest) more := by
  rw [transact_of_ok h, afterOk_of_records (s := s) rest more rfl]
  simp [-Option.map_map, map_succ_map_add, State.afterOk, State.afterWrites, okItems, planTxs]

end

/-- After a leading part of a plan whose transactions are answered `ok` the rest is performed (00_scope.md R13). -/
theorem performFrom_append_of_ok (E : Nat → OpError) (post : List PlanStep) (more : List Reply) :
    ∀ (pre : List PlanStep) (j : Nat) (s : State), s.replies = List.replicate (planTxs pre).length .ok ++ more →
      performFrom E (pre ++ post) j s = performFrom E post (j + (planTxs pre).length) (s.afterOk pre more)
  | [], j, s, h => by
    have hstate : s.afterOk [] more = s := by
      simpa [State.ext_iff, State.afterOk, State.afterWrites, okItems, planTxs] using h.symm
    rw [hstate]
    rfl
  | .set w :: rest, j, s, h => by
    rw [← afterOk_set]
    exact performFrom_append_of_ok E post more rest j (s.write w).advance ((write_replies s w).trans h)
  | .delay d :: rest, j, s, h => by
    rw [← afterOk_delay]
    exact performFrom_append_of_ok E post more rest j (s.wait d).advance h
  | .tx bytes :: rest, j, s, h => by
    have hr : s.replies = .ok :: (List.replicate (planTxs rest).length .ok ++ more) := h
    have hok : s.nextAnswer = .ok := nextAnswer_cons s hr
    have hcount : j + (planTxs (.tx bytes :: rest)).length = j + 1 + (planTxs rest).length :=
      (Nat.add_right_comm j (planTxs rest).length 1).trans rfl
    rw [← afterOk_tx rest more hr, List.cons_append, performFrom, hok, hcount]
    exact performFrom_append_of_ok E post more rest (j + 1) _ (by simp [hr])

/-! ### The two ends of a plan -/

/-- Every transaction of the plan is answered `ok`. -/
theorem runPlan_of_ok {E : Nat → OpError} {plan : List PlanStep} {s : State} {rest : List Reply} (r : Report)
    (h : s.replies = List.replicate (planTxs plan).length .ok ++ rest) :
    runPlan E plan r s = .next
      { s.afterWrites plan with
        seq := none, replies := rest
        trace := s.trace ++ okItems s.cfg plan
        pins := s.pins ++ (planTxs plan).flatten
        reports := s.reports ++ [r] } := by
  have hperform := performFrom_append_of_ok E [] rest plan 0 (s.setSeq (some 0)) h
  rw [List.append_nil, afterOk_of_records (s := s) plan rest rfl] at hperform
  rw [runPlan_eq, perform, hperform]
  simp [performFrom, State.report, State.setSeq, afterWrites_reports]

/-- The transactions of `pre` are answered `ok`, and the one after it fails after `n` of its bytes: nothing of `post` is
performed (60_exceptions.md R178). -/
theorem runPlan_of_fail {E : Nat → OpError} {pre post : List PlanStep} {bytes : List Byte} {s : State} {n : Nat}
    {rest : List Reply} (r : Report) (h : s.replies = List.replicate (planTxs pre).length .ok ++ .fail n :: rest) :
    runPlan E (pre ++ .tx bytes :: post) r s = .next
      { s.afterWrites pre with
        seq := none, replies := rest
        trace := s.trace ++ okItems s.cfg pre ++ [.tx s.cfg.i2cAddr bytes .fail]
        pins := s.pins ++ (planTxs pre).flatten ++ bytes.take n
        reports := s.reports ++ [.error (E (planTxs pre).length)] } := by
  have hperform := performFrom_append_of_ok E (.tx bytes :: post) (.fail n :: rest) pre 0 (s.setSeq (some 0)) h
  rw [afterOk_of_records (s := s) pre _ rfl, performFrom, nextAnswer_cons (r := .fail n) (rest := rest) _ rfl,
    transact_of_fail (n := n) (more := rest) rfl] at hperform
  rw [runPlan_eq, perform, hperform]
  simp [replyAnswer, State.report, State.setSeq, afterWrites_reports, afterWrites_cfg]

/-! ### The handshake -/

/-- The plan step that is transaction `k` of `initPlan` (44_init_sequence.md R141). -/
def initPosition (k : Nat) : Nat := [5, 7, 9, 11, 12, 14, 15, 18].getD k 19

theorem functionSetByte_eq (rows : Byte) : functionSetByte rows = if 1 < rows.toNat then 0x28 else 0x20 := by
  unfold functionSetByte
  split <;> rfl

section
variable (s : State) (columns rows : Byte)

/-- The plan of `initDisplay` has the handshake's items (44_init_sequence.md R141). -/
theorem okItems_initPlan : okItems s.cfg (initPlan s columns rows) = initTrace s rows := by
  rw [initPlan, functionSetByte_eq]
  rfl

/-- It writes the geometry and the defaults, and neither `BL` nor the pin map (decision D10). -/
theorem afterWrites_initPlan : s.afterWrites (initPlan s columns rows) =
    { s with em := 0b10#2, dc := 0b100#3, cols := columns, rows := rows } := rfl

/-- Transaction `k` in the plan, and what the steps before it write and add (44_init_sequence.md R142). -/
theorem initPlan_split {k : Nat} (hk : k < 8) :
    let pre := (initPlan s columns rows).take (initPosition k)
    ∃ bytes, initPlan s columns rows = pre ++ .tx bytes :: (initPlan s columns rows).drop (initPosition k + 1) ∧
      (planTxs pre).length = k ∧ okItems s.cfg pre = (initTrace s rows).take (initIndex k) ∧
      (initTrace s rows)[initIndex k]? = some (.tx s.cfg.i2cAddr bytes .ok) ∧
      s.afterWrites pre =
        { s with em := 0b10#2, dc := if k ≤ 4 then 0b000#3 else 0b100#3, cols := columns, rows := rows } := by
  rw [← okItems_initPlan s columns rows]
  -- each of the eight splits computes
  interval_cases k
  all_goals exact ⟨_, rfl, rfl, rfl, rfl, rfl⟩

end

/-! ### The obligations -/

/-- Settles O31: all eight transactions of the plan are answered `ok`. -/
theorem initializeRunsTheHandshake : Obligations.InitializeRunsTheHandshake := by
  intro columns rows s rest hs h
  have hplan := runPlan_of_ok (E := initError) (plan := initPlan s columns rows) .done h
  rw [← pinStream_okItems s.cfg, okItems_initPlan, afterWrites_initPlan] at hplan
  exact (whenConstructed_of hs _).trans hplan

/-- Settles O32: the plan is split at the failing transaction. -/
theorem initializeStopsAtAFailure : Obligations.InitializeStopsAtAFailure := by
  intro columns rows s k n rest hs hk h
  obtain ⟨bytes, hsplit, hcount, hitems, hitem, hwrites⟩ := initPlan_split s columns rows hk
  have hplan := runPlan_of_fail (E := initError) (bytes := bytes)
    (post := (initPlan s columns rows).drop (initPosition k + 1)) .done (hcount.symm ▸ h)
  rw [← hsplit, ← pinStream_okItems s.cfg, hitems, hwrites, hcount] at hplan
  exact ⟨bytes, hitem, (whenConstructed_of hs _).trans hplan⟩

end Sys2Proof.Machine
end

section
/-! The statement on the frame bound: 20_memory.md R64. The bound is read by the batcher alone, and the batcher's
transactions concatenate to the same bytes under every bound. -/

namespace Sys2Proof.Machine

/-! ### Operations without the batcher do not read the bound -/

section
variable (s : State) (room : Nat)

theorem write_withFrameRoom (w : FieldWrite) : (s.withFrameRoom room).write w = (s.write w).withFrameRoom room := by
  cases w <;> rfl

theorem wait_withFrameRoom (d : DelayParam) : (s.withFrameRoom room).wait d = (s.wait d).withFrameRoom room := by
  cases d <;> rfl

theorem transact_withFrameRoom (bytes : List Byte) :
    (s.withFrameRoom room).transact bytes = (s.transact bytes).withFrameRoom room := by
  have hreply : (s.withFrameRoom room).takeReply = s.takeReply.withFrameRoom room := by
    unfold State.takeReply
    cases hr : s.replies <;> simp [State.withFrameRoom, State.draw, hr]
  rw [State.transact, hreply]
  rfl

/-- A plan runs in the same way under every bound. -/
theorem performFrom_withFrameRoom (E : Nat → OpError) : ∀ (plan : List PlanStep) (j : Nat) (s : State),
    performFrom E plan j (s.withFrameRoom room) =
      ((performFrom E plan j s).1.withFrameRoom room, (performFrom E plan j s).2)
  | [], _, _ => rfl
  | .set w :: rest, j, s => by
    rw [performFrom, write_withFrameRoom]
    exact performFrom_withFrameRoom E rest j (s.write w).advance
  | .delay d :: rest, j, s => by
    rw [performFrom, wait_withFrameRoom]
    exact performFrom_withFrameRoom E rest j (s.wait d).advance
  | .tx bytes :: rest, j, s => by
    have hanswer : (s.withFrameRoom room).nextAnswer = s.nextAnswer := rfl
    rw [performFrom, performFrom, transact_withFrameRoom, hanswer]
    cases s.nextAnswer with
    | ok => exact performFrom_withFrameRoom E rest (j + 1) (s.transact bytes).advance
    | fail => rfl

/-- The plan of an operation that does not write `CNT` does not depend on the bound. -/
theorem planOutcome_withFrameRoom {i : Instr} (h : writesCnt i = false) :
    planOutcome (s.withFrameRoom room) i = (planOutcome s i).withFrameRoom room := by
  have hplan : planOf (s.withFrameRoom room) i = planOf s i ∧ errorOf (s.withFrameRoom room) i = errorOf s i ∧
      startOf (s.withFrameRoom room) i = (startOf s i).withFrameRoom room := by
    cases i with
    | createGlyph | writeBytes => exact nomatch h
    | _ => exact ⟨rfl, rfl, rfl⟩
  obtain ⟨hplan, herror, hstart⟩ := hplan
  have hperform : perform (errorOf s i) (planOf s i) ((startOf s i).withFrameRoom room) = _ :=
    performFrom_withFrameRoom room (errorOf s i) (planOf s i) 0 ((startOf s i).setSeq (some 0))
  rw [planOutcome, hplan, herror, hstart, hperform]
  rfl

/-- Such an operation leads to one next state but for the bound. -/
theorem exec_withFrameRoom {i : Instr} {s : State} (hs : s.life = .constructed) (h : writesCnt i = false) :
    ∃ t : State, ∀ room, exec i (s.withFrameRoom room) = .next (t.withFrameRoom room) := by
  have hi : i.isConstruct = false := by
    cases i with
    | construct => exact nomatch h
    | _ => rfl
  rcases arguments_pass_or_not i s with ha | ⟨col, row, which, rfl, hc⟩
  · exact ⟨planOutcome s i, fun room => by
      rw [← planOutcome_withFrameRoom s room h]
      exact exec_eq_planOutcome hs hi ha⟩
  · exact ⟨s.report (.error (.invalidArgument which)), fun room => exec_setCursor_error hs hc⟩

end

/-! ### Operations with the batcher -/

theorem pinStream_cons (item : TraceItem) (items : List TraceItem) :
    pinStream (item :: items) = item.bytes ++ pinStream items := List.flatMap_cons

/-- The pin stream of transactions that are answered `ok`. -/
theorem pinStream_map_tx (addr : Nat) (txs : List (List Byte)) :
    pinStream (txs.map (.tx addr · .ok)) = txs.flatten := by
  rw [pinStream, List.flatMap_map]
  exact List.flatMap_id

/-- The batcher's pin stream is the frames, whatever the bound. -/
theorem pinStream_batch (s : State) (room : Nat) (addr : Nat) (bs : List Byte) :
    pinStream ((batch (s.withFrameRoom room) bs).2.map (.tx addr · .ok)) = bs.flatMap (frame s.mask s.lit true) :=
  (pinStream_map_tx addr _).trans (batch_flatten (s.withFrameRoom room) bs)

/-! ### The obligation -/

/-- Settles O49: an operation that does not batch does not read the bound, and one that does sends the same frames. -/
theorem frameBoundIsInvisibleToTheDisplay : Obligations.FrameBoundIsInvisibleToTheDisplay := by
  intro i s room room' hs hi hok hmax
  have hreplies : ∀ (bs : List Byte) (extra : Nat), bs.length + extra ≤ s.replies.length → ∀ r,
      ∃ rest, (s.withFrameRoom r).replies =
        List.replicate ((batch (s.withFrameRoom r) bs).2.length + extra) .ok ++ rest :=
    fun bs extra hlen r => ⟨_, replies_eq_replicate_append hok
      ((Nat.add_le_add_right (batch_length_le (s.withFrameRoom r) bs) extra).trans hlen)⟩
  by_cases hcnt : writesCnt i = false
  · obtain ⟨t, ht⟩ := exec_withFrameRoom hs hcnt
    exact ⟨_, _, ht room, ht room', rfl, rfl, rfl, rfl, rfl, rfl, rfl, rfl, rfl, rfl, rfl, rfl, rfl⟩
  · cases i with
    | writeBytes buffer =>
      obtain ⟨rest, h⟩ := hreplies buffer 0 hmax room
      obtain ⟨rest', h'⟩ := hreplies buffer 0 hmax room'
      refine ⟨_, _, writeBytesSendsTheBuffer buffer _ rest hs h, writeBytesSendsTheBuffer buffer _ rest' hs h', rfl, ?_,
        rfl, rfl, rfl, rfl, rfl, rfl, rfl, rfl, rfl, rfl, rfl⟩
      simp only [pinStream_append, pinStream_batch]
      rfl
    | createGlyph slot bitmap =>
      obtain ⟨rest, h⟩ := hreplies bitmap 1 hmax room
      obtain ⟨rest', h'⟩ := hreplies bitmap 1 hmax room'
      refine ⟨_, _, exec_createGlyph_of_ok (s := s.withFrameRoom room) hs h,
        exec_createGlyph_of_ok (s := s.withFrameRoom room') hs h', rfl, ?_,
        rfl, rfl, rfl, rfl, rfl, rfl, rfl, rfl, rfl, rfl, rfl⟩
      simp only [pinStream_append, pinStream_cons, pinStream_batch]
      rfl
    | construct => exact nomatch hi
    | _ => exact absurd rfl hcnt

end Sys2Proof.Machine
end
